-- ==== Sys2Proof/Word.lean ====
section
/-! DEFINITION. The bit widths of the CRC block (00_scope.md R8) and the name of its byte-order selection. -/

namespace Sys2Proof

/-- A buffer byte: 8 bits, unsigned (R8, R9). -/
abbrev Byte := BitVec 8

/-- A CRC value: 16 bits, unsigned (R8, R21). -/
abbrev Crc := BitVec 16

/-- A command word and a register as the host reads it: 32 bits (R8, R30, R60). -/
abbrev Word := BitVec 32

/-- The byte order of the CRC in the buffer, which the REV field selects (R44, R61).
The names are the assembler's (R68). -/
inductive ByteOrder where
  /-- REV = 0: low byte first. -/
  | lohi
  /-- REV = 1: high byte first. -/
  | hilo
deriving DecidableEq, Repr

end Sys2Proof
end

