-- ==== Sys2Proof/Syntax.lean ====
section
/-! DEFINITION. The five commands of the engine: one constructor per row of opcode_table.json (30_encoding.md R63). -/

namespace Sys2Proof

/-- A command (R63). LEN is a natural number, as R9 and R62 use it; that it fits its 16-bit field is
`Instr.wf` (assumption 10). DATA is a byte. No command names a register (R22). -/
inductive Instr where
  /-- `crc.init`: set the CRC register to the seed (R85). -/
  | init
  /-- `crc.update D`: absorb one byte (R86). -/
  | update (data : Byte)
  /-- `crc.compute N`: the CRC of the first N buffer bytes (R88). -/
  | compute (len : Nat)
  /-- `crc.append N, O`: compute the CRC of the first N bytes and write it after them (R100). -/
  | append (len : Nat) (order : ByteOrder)
  /-- `crc.check N, O`: compare the last two of the first N bytes with the CRC of the others (R110). -/
  | check (len : Nat) (order : ByteOrder)
deriving DecidableEq, Repr

end Sys2Proof
end

