-- ==== Sys2Proof/WellFormed.lean ====
section
/-! DEFINITION. Which command terms a 32-bit command word can hold: LEN is 0 to 65535 (30_encoding.md R62, R68). -/

namespace Sys2Proof

/-- LEN fits its 16-bit field (R62: an unsigned count from 0 to 65535). -/
def lenFits (len : Nat) : Bool := decide (len < 65536)

/-- The operands of a command fit the fields of the command word (R61, R68: an operand out of range is an
assembly error and is not truncated). -/
def Instr.wf : Instr → Bool
  | .init => true
  | .update _ => true
  | .compute len => lenFits len
  | .append len _ => lenFits len
  | .check len _ => lenFits len

end Sys2Proof
end

