-- ==== Sys2Proof/Decode.lean ====
section
/-! DEFINITION. The command word: its fields, the decoder, the opcode table's rows and the encoder
(30_encoding.md R60 to R71). -/

namespace Sys2Proof

/-- OP = w[3:0] (R61, R62). -/
def fieldOp (w : Word) : BitVec 4 := w.extractLsb' 0 4

/-- REV = w[4] (R61, R62). -/
def fieldRev (w : Word) : BitVec 1 := w.extractLsb' 4 1

/-- RSV = w[7:5] (R61, R62). -/
def fieldRsv (w : Word) : BitVec 3 := w.extractLsb' 5 3

/-- DATA = w[15:8] (R61, R62). -/
def fieldData (w : Word) : Byte := w.extractLsb' 8 8

/-- LEN = w[31:16] (R61, R62). -/
def fieldLen (w : Word) : BitVec 16 := w.extractLsb' 16 16

/-- The byte order a REV bit selects (R44). -/
def ByteOrder.ofRev (rev : BitVec 1) : ByteOrder := if rev = 0#1 then .lohi else .hilo

/-- The REV bit of a byte order (R68: r = 0 for `lohi`, 1 for `hilo`). -/
def ByteOrder.toRev : ByteOrder → BitVec 1
  | .lohi => 0#1
  | .hilo => 1#1

/-- Why a word is illegal (the classes of R66; the engine does not record which, R120; assumption 11). -/
inductive Illegal where
  /-- RSV is not 0. -/
  | reservedBits
  /-- OP is 0x0 or 0x6 to 0xF. -/
  | reservedOp
  /-- A field the command does not use is not 0. -/
  | unusedField
deriving DecidableEq, Repr

/-- What a word decodes to (R65: `Command | Illegal`). -/
inductive Decoded where
  | command (i : Instr)
  | illegal (why : Illegal)
deriving DecidableEq, Repr

/-- Is the word illegal? -/
def Decoded.isIllegal : Decoded → Bool
  | .command _ => false
  | .illegal _ => true

/-- A command, provided the fields it does not use are 0 (R64, R65). -/
def Decoded.ofUnused (unusedZero : Prop) [Decidable unusedZero] (i : Instr) : Decoded :=
  if unusedZero then .command i else .illegal .unusedField

/-- The decode function, total on all 2^32 words (R65). -/
def decode (w : Word) : Decoded :=
  if fieldRsv w ≠ 0#3 then .illegal .reservedBits
  else if fieldOp w = 0x1#4 then
    Decoded.ofUnused (fieldRev w = 0#1 ∧ fieldData w = 0#8 ∧ fieldLen w = 0#16) .init
  else if fieldOp w = 0x2#4 then
    Decoded.ofUnused (fieldRev w = 0#1 ∧ fieldLen w = 0#16) (.update (fieldData w))
  else if fieldOp w = 0x3#4 then
    Decoded.ofUnused (fieldRev w = 0#1 ∧ fieldData w = 0#8) (.compute (fieldLen w).toNat)
  else if fieldOp w = 0x4#4 then
    Decoded.ofUnused (fieldData w = 0#8) (.append (fieldLen w).toNat (.ofRev (fieldRev w)))
  else if fieldOp w = 0x5#4 then
    Decoded.ofUnused (fieldData w = 0#8) (.check (fieldLen w).toNat (.ofRev (fieldRev w)))
  else .illegal .reservedOp

/-- A row of the opcode table: a word selects it exactly when `(w & mask) = pattern` (R64, R71). -/
structure OpcodeRow where
  mnemonic : String
  pattern : Word
  mask : Word
deriving DecidableEq, Repr

/-- The word selects the row (R64). -/
def OpcodeRow.selects (r : OpcodeRow) (w : Word) : Bool := w &&& r.mask == r.pattern

/-- The match/mask pair of each command (R64, opcode_table.json). -/
def Instr.row : Instr → OpcodeRow
  | .init => ⟨"crc.init", 0x00000001#32, 0xFFFFFFFF#32⟩
  | .update _ => ⟨"crc.update", 0x00000002#32, 0xFFFF00FF#32⟩
  | .compute _ => ⟨"crc.compute", 0x00000003#32, 0x0000FFFF#32⟩
  | .append _ _ => ⟨"crc.append", 0x00000004#32, 0x0000FFEF#32⟩
  | .check _ _ => ⟨"crc.check", 0x00000005#32, 0x0000FFEF#32⟩

/-- The opcode table: the five rows of R64. -/
def opcodeRows : List OpcodeRow :=
  [Instr.init.row, (Instr.update 0).row, (Instr.compute 0).row, (Instr.append 0 .lohi).row,
    (Instr.check 0 .lohi).row]

/-- The fields of a command word put in their places, RSV = 0 (R61). -/
def commandWord (len : BitVec 16) (data : Byte) (rev : BitVec 1) (op : BitVec 4) : Word :=
  len ++ data ++ 0#3 ++ rev ++ op

/-- The OP value of a command (R63). -/
def Instr.op : Instr → BitVec 4
  | .init => 0x1#4
  | .update _ => 0x2#4
  | .compute _ => 0x3#4
  | .append _ _ => 0x4#4
  | .check _ _ => 0x5#4

/-- The word of a well-formed command (R64, R68). -/
def encode : Instr → Word
  | .init => commandWord 0#16 0#8 0#1 0x1#4
  | .update data => commandWord 0#16 data 0#1 0x2#4
  | .compute len => commandWord (BitVec.ofNat 16 len) 0#8 0#1 0x3#4
  | .append len order => commandWord (BitVec.ofNat 16 len) 0#8 order.toRev 0x4#4
  | .check len order => commandWord (BitVec.ofNat 16 len) 0#8 order.toRev 0x5#4

/-- The command word with the bits above `nbits` zero (assumption 13: a command is one 32-bit register write, R60,
so its bits have no layout in memory). -/
def tableWord (nbits w : Nat) : Word := BitVec.ofNat 32 (w % 2 ^ nbits)

/-- What the decoder reads from a word numbered as the opcode table numbers it. -/
def decodeTableWord (nbits w : Nat) : Option Instr :=
  match decode (tableWord nbits w) with
  | .command i => some i
  | .illegal _ => none

end Sys2Proof
end

