-- ==== Sys2Proof/Machine/Operands.lean ====
section
/-! DEFINITION. The operand forms of the commands: the two bytes of a CRC and their places in the buffer
(00_scope.md R9, 41_crc_append.md R101), and a byte widened to the CRC's width (30_encoding.md R62). -/

namespace Sys2Proof.Machine

/-- `lo8(c) = c[7:0]` (R9). -/
def lo8 (c : Crc) : Byte := c.extractLsb' 0 8

/-- `hi8(c) = c[15:8]` (R9). -/
def hi8 (c : Crc) : Byte := c.extractLsb' 8 8

/-- `zext_16(b)` of a byte (R9, R62). -/
def zext16 (b : Byte) : Crc := b.setWidth 16

/-- `crc_bytes(c, rev)`: (byte at the lower offset, byte at the higher offset) (R101). -/
def crcBytes (c : Crc) : ByteOrder → Byte × Byte
  | .lohi => (lo8 c, hi8 c)
  | .hilo => (hi8 c, lo8 c)

end Sys2Proof.Machine
end

