-- ==== Sys2Proof/Machine/CrcMath.lean ====
section
/-! DEFINITION. The CRC primitives every command uses (40_crc_generate.md R80 to R82). -/

namespace Sys2Proof.Machine

/-- The initial value of the CRC (R2, R8). -/
def crcSeed : Crc := 0xFFFF#16

/-- The polynomial in its reflected form (R2, R8). -/
def crcPoly : Crc := 0xA001#16

/-- `crc_shift1(c)`: one iteration of the inner loop (R80). The test is on the bit before the shift; the shift
comes before the XOR. -/
def crcShift1 (c : Crc) : Crc :=
  if c.getLsbD 0 = true then (c >>> 1) ^^^ crcPoly else c >>> 1

/-- `crc_shift1` applied `k` times. -/
def crcShifts : Nat → Crc → Crc
  | 0, c => c
  | k + 1, c => crcShifts k (crcShift1 c)

/-- `crc_step(c, b)`: absorb one byte; exactly eight iterations (R81). -/
def crcStep (c : Crc) (b : Byte) : Crc := crcShifts 8 (c ^^^ zext16 b)

/-- `crc16` of the bytes `read 0`, …, `read (n - 1)`, absorbed in that order from the seed, with no final step
(R82). -/
def crc16 (read : Nat → Byte) : Nat → Crc
  | 0 => crcSeed
  | n + 1 => crcStep (crc16 read n) (read n)

end Sys2Proof.Machine
end

