-- ==== Sys2Proof/Config.lean ====
section
/-! DEFINITION. What a platform fixes and the spec leaves open: the buffer's size and contents in `State.reset`.
Both are only the values `State.reset` takes: `BUF_SIZE` and the buffer's bytes are data of every state, so a
statement about every state holds for every `BUF_SIZE` (R8) and every launch image (R41). -/

namespace Sys2Proof

/-- The `BUF_SIZE` of `State.reset`. DESIGN CHOICE (assumption 2): R8 leaves `BUF_SIZE` open and names 256
as a natural choice. -/
def Config.resetBufSize : Nat := 256

/-- What a buffer byte reads as that memory does not list. DESIGN CHOICE (assumption 3): the launch image is a
parameter (R41); a launch with other contents lists its bytes. -/
def Config.unlistedByte : Byte := 0x00#8

end Sys2Proof
end

