-- ==== Sys2Proof/Machine/State.lean ====
section
/-! DEFINITION. The machine's state: the engine's registers (10_state.md R20), the buffer it shares with the host
(R40), and the host, whose sequence of actions drives the engine (R7, R150). -/

namespace Sys2Proof.Machine

/-- The reasons the machine stops with a fault. None is a fault of the engine: those are recorded in STATUS and
the machine goes on (R122). -/
inductive Fault where
  /-- A host access to a buffer offset that does not exist (R34, R40: offsets are 0 to `BUF_SIZE - 1`).
  Raised by `bufferRead` and `bufferWrite`. Safe: the machine stops (assumption 7). -/
  | noSuchOffset (off : Nat)
deriving DecidableEq, Repr

/-- The reasons the machine refuses a host action. R30 admits three register accesses and has the model refuse
every other one; each refusal names what was wrong with the access (assumption 8). -/
inductive Refusal where
  /-- An instruction with no meaning yet; no arm of `exec` raises it. Safe. -/
  | notModelled (mnemonic : String)
  /-- A register access narrower or wider than 32 bits (R30). Raised by `registerRead`, `registerWrite`. Safe. -/
  | registerWidth (width : Nat)
  /-- A register access at an offset that is not a multiple of 4 (R30). Raised by the same two. Safe. -/
  | registerMisaligned (off : Nat)
  /-- A register access at offset 0x0C or above (R30). Raised by the same two. Safe. -/
  | registerOutside (off : Nat)
  /-- A read of CMD, which is write only (R30). Raised by `registerRead`. Safe. -/
  | readOfCmd
  /-- A write to CRC, which is read only (R30). Raised by `registerWrite`. Safe. -/
  | writeToCrc
  /-- A write to STATUS, which is read only (R30). Raised by `registerWrite`. Safe. -/
  | writeToStatus
deriving DecidableEq, Repr

/-- One action of the host, the outside world of the engine (R50, R140, R150). Register accesses carry their
offset from the window base and their width in bits, so that the accesses R30 does not admit can be told. -/
inductive HostAction where
  /-- Write `data` to the register at `off`. A 32-bit write to offset 0x00 writes a command (R31). -/
  | writeReg (off : Nat) (width : Nat) (data : BitVec width)
  /-- Read the register at `off`. -/
  | readReg (off : Nat) (width : Nat)
  /-- Write one buffer byte directly (R40; one byte an action, assumption 6). -/
  | writeBuf (off : Nat) (value : Byte)
  /-- Read one buffer byte directly (R40). -/
  | readBuf (off : Nat)
  /-- The reset event (R140). -/
  | reset
deriving DecidableEq, Repr

/-- The buffer's contents: (offset, byte) pairs, offsets strictly rising, no byte equal to
`Config.unlistedByte`, which an unlisted offset reads as (`Memory.wf`). -/
abbrev Memory := List Host.Cell

/-- The machine. The engine's registers are `crc` to `count` and nothing else (R20). -/
structure State where
  /-- `CRC`, the running CRC (R21). -/
  crc : Crc
  /-- `STATUS.MATCH` (R25). -/
  matchBit : Bool
  /-- `STATUS.FAULT` (R26). -/
  fault : Bool
  /-- `STATUS.CAUSE` (R27). -/
  cause : BitVec 3
  /-- `STATUS.COUNT` (R28). -/
  count : BitVec 4
  /-- `BUF_SIZE`, the number of bytes of the buffer: a parameter that no action changes (R8, R40; assumption 2). -/
  bufSize : Nat
  /-- The buffer's bytes (R40, R41). -/
  mem : Memory
  /-- The host's actions still to come, the next first (R150; assumption 1). -/
  pending : List HostAction
  /-- The host's index of the next command in its command sequence (R24; assumption 5). -/
  pc : Nat
  /-- The values returned by the host's register reads, oldest first (R150; assumption 9). -/
  regReads : List Word
  /-- The values returned by the host's buffer reads, oldest first (R40; assumption 9). -/
  bufReads : List Byte
deriving DecidableEq, Repr

/-- The machine right after reset, the registers as R35 gives them, with the buffer of `Config` and a host that
has issued nothing and has nothing to issue (assumptions 1 to 3). -/
def State.reset : State where
  crc := 0xFFFF#16
  matchBit := false
  fault := false
  cause := 0#3
  count := 0#4
  bufSize := Config.resetBufSize
  mem := []
  pending := []
  pc := 0
  regReads := []
  bufReads := []

end Sys2Proof.Machine
end

