-- ==== Sys2Proof/Machine/Flags.lean ====
section
/-! DEFINITION. STATUS: the cause codes (60_exceptions.md R120) and the words the host reads (10_state.md R23, R29). -/

namespace Sys2Proof.Machine

/-- The four faults of the engine (R120). -/
inductive FaultCause where
  /-- The word decodes to `Illegal`. -/
  | illegalCommand
  /-- `LEN > BUF_SIZE`. -/
  | readBounds
  /-- `LEN <= BUF_SIZE` and `LEN + 2 > BUF_SIZE`. -/
  | writeBounds
  /-- `LEN < 2`. -/
  | shortFrame
deriving DecidableEq, Repr

/-- The CAUSE code of a fault (R27, R120). -/
def FaultCause.code : FaultCause → BitVec 3
  | .illegalCommand => 1#3
  | .readBounds => 2#3
  | .writeBounds => 3#3
  | .shortFrame => 4#3

/-- STATUS as the host reads it: bits 31:12 reserved, 11:8 COUNT, 7:5 reserved, 4:2 CAUSE, 1 FAULT, 0 MATCH
(R23, R29). -/
def statusWord (s : State) : Word :=
  0#20 ++ s.count ++ 0#3 ++ s.cause ++ BitVec.ofBool s.fault ++ BitVec.ofBool s.matchBit

/-- CRC as the host reads it: `zext_32(CRC)` (R29, R30). -/
def crcWord (s : State) : Word := s.crc.setWidth 32

end Sys2Proof.Machine
end

