-- ==== Sys2Proof/Machine/Ops.lean ====
section
/-! DEFINITION. The named operations over the buffer and the registers: one-byte accesses (20_memory.md R42), the
accepted command's register writes, fault entry (60_exceptions.md R122), the ignored command (R124) and the reset
event (70_reset_and_hazards.md R140). -/

namespace Sys2Proof.Machine

/-- The byte listed at offset `i`, or the unlisted byte. -/
def Memory.read : Memory → Nat → Byte
  | [], _ => Config.unlistedByte
  | (a, v) :: m, i => if a = i then v else Memory.read m i

/-- A cell in front of a memory, unless it holds the unlisted byte. -/
def Memory.cons (i : Nat) (v : Byte) (m : Memory) : Memory :=
  if v = Config.unlistedByte then m else (i, v) :: m

/-- Write byte `v` at offset `i`, keeping the canonical form. -/
def Memory.write : Memory → Nat → Byte → Memory
  | [], i, v => Memory.cons i v []
  | (a, x) :: m, i, v =>
    if i < a then Memory.cons i v ((a, x) :: m)
    else if i = a then Memory.cons i v m
    else (a, x) :: Memory.write m i v

/-- The canonical form from offset `lo` on: offsets strictly rising, none below `lo`, no unlisted byte listed. -/
def Memory.wfFrom : Nat → Memory → Bool
  | _, [] => true
  | lo, (a, v) :: m => decide (lo ≤ a) && decide (v ≠ Config.unlistedByte) && Memory.wfFrom (a + 1) m

/-- The canonical form. -/
def Memory.wf (m : Memory) : Bool := Memory.wfFrom 0 m

/-- Every listed offset is below `size`. -/
def Memory.below (size : Nat) (m : Memory) : Bool := m.all fun c => decide (c.1 < size)

/-- The memory that holds the bytes of `image` at offsets `off`, `off + 1`, … and is `m` elsewhere. -/
def Memory.place : Memory → Nat → List Byte → Memory
  | m, _, [] => m
  | m, off, b :: bs => Memory.place (Memory.write m off b) (off + 1) bs

/-- `MemRead(i, 1)` (R10, R42). A command checks its bounds before it reads (R43, R122). -/
def State.readByte (s : State) (i : Nat) : Byte := s.mem.read i

/-- `MemWrite(i, 1, v)` (R10, R42). -/
def State.writeByte (s : State) (i : Nat) (v : Byte) : State := { s with mem := s.mem.write i v }

/-- `crc16(buf, n)` of the buffer (R82); requires `n <= BUF_SIZE`, which the caller checks. -/
def State.crcOf (s : State) (n : Nat) : Crc := crc16 s.readByte n

/-- The register writes of an accepted command: CRC, MATCH and COUNT; FAULT and CAUSE stay (R21, R25, R28). -/
def State.complete (s : State) (crc : Crc) (isMatch : Bool) (count : BitVec 4) : State :=
  { s with crc := crc, matchBit := isMatch, count := count }

/-- Fault entry: FAULT and CAUSE are written and nothing else (R122). There is no return from a fault but reset
(R125). -/
def State.raiseFault (s : State) (why : FaultCause) : State :=
  { s with fault := true, cause := why.code }

/-- The reset event: every engine register at its reset value, the buffer and the host untouched (R35, R140). -/
def State.resetEngine (s : State) : State :=
  { s with crc := 0xFFFF#16, matchBit := false, fault := false, cause := 0#3, count := 0#4 }

/-- A command takes effect only while FAULT = 0; otherwise it is ignored (R11, R124; assumption 15). -/
def ifAccepting (s : State) (run : Host.Outcome State Fault Refusal) : Host.Outcome State Fault Refusal :=
  if s.fault = true then .next s else run

/-- The host takes up its next action: `rest` is what is left to come. -/
def State.takeUp (s : State) (rest : List HostAction) : State := { s with pending := rest }

/-- The host's index of the next command advances by one per command write (R24). -/
def State.advancePc (s : State) : State := { s with pc := s.pc + 1 }

/-- A register read returns `w` to the host and has no other effect (R30, R49). -/
def State.logRegRead (s : State) (w : Word) : State := { s with regReads := s.regReads ++ [w] }

/-- A buffer read returns `b` to the host and has no other effect (R49). -/
def State.logBufRead (s : State) (b : Byte) : State := { s with bufReads := s.bufReads ++ [b] }

end Sys2Proof.Machine
end

