-- ==== Sys2Proof/Machine/Append.lean ====
section
/-! DEFINITION. The appender (41_crc_append.md R100). -/

namespace Sys2Proof.Machine

/-- `crc.append N, O` (R100): both bounds are checked before any access; offset LEN is written first, then
LEN + 1 (R48). LEN + 2 does not wrap (R9). -/
def execAppend (len : Nat) (order : ByteOrder) (s : State) : Host.Outcome State Fault Refusal :=
  ifAccepting s
    (if len > s.bufSize then .next (s.raiseFault .readBounds)
    else if len + 2 > s.bufSize then .next (s.raiseFault .writeBounds)
    else
      let c := s.crcOf len
      let b := crcBytes c order
      .next (((s.writeByte len b.1).writeByte (len + 1) b.2).complete c false 2#4))

end Sys2Proof.Machine
end

