-- ==== Sys2Proof/Machine/Check.lean ====
section
/-! DEFINITION. The checker (42_crc_check.md R110). -/

namespace Sys2Proof.Machine

/-- The comparison of CHECK: the bytes at LEN - 2 and LEN - 1 are the two given bytes (R110). -/
def State.trailingBytesAre (s : State) (len : Nat) (b : Byte × Byte) : Bool :=
  s.readByte (len - 2) == b.1 && s.readByte (len - 1) == b.2

/-- `crc.check N, O` (R110): SHORT_FRAME comes before READ_BOUNDS (R123), and a mismatch is a result, not a fault
(R121). CRC gets the computed value, not the stored bytes. -/
def execCheck (len : Nat) (order : ByteOrder) (s : State) : Host.Outcome State Fault Refusal :=
  ifAccepting s
    (if len < 2 then .next (s.raiseFault .shortFrame)
    else if len > s.bufSize then .next (s.raiseFault .readBounds)
    else
      let c := s.crcOf (len - 2)
      .next (s.complete c (s.trailingBytesAre len (crcBytes c order)) 0#4))

end Sys2Proof.Machine
end

