-- ==== Sys2Proof/Machine/Generate.lean ====
section
/-! DEFINITION. The commands that only compute: INIT, UPDATE and COMPUTE (40_crc_generate.md R85, R86, R88). -/

namespace Sys2Proof.Machine

/-- `crc.init` (R85). -/
def execInit (s : State) : Host.Outcome State Fault Refusal :=
  ifAccepting s (.next (s.complete crcSeed false 0#4))

/-- `crc.update D` (R86): it does not seed, it continues from the CRC register. -/
def execUpdate (data : Byte) (s : State) : Host.Outcome State Fault Refusal :=
  ifAccepting s (.next (s.complete (crcStep s.crc data) false 0#4))

/-- `crc.compute N` (R88): it seeds itself, and the old CRC is not read. -/
def execCompute (len : Nat) (s : State) : Host.Outcome State Fault Refusal :=
  ifAccepting s
    (if len > s.bufSize then .next (s.raiseFault .readBounds)
    else .next (s.complete (s.crcOf len) false 0#4))

end Sys2Proof.Machine
end

