-- ==== Sys2Proof/Machine/Dispatch.lean ====
section
/-! DEFINITION. One arm per command: each calls that command's meaning. -/

namespace Sys2Proof.Machine

def exec (i : Instr) (s : State) : Host.Outcome State Fault Refusal :=
  match i with
  | .init => Sys2Proof.Machine.execInit s
  | .update data => Sys2Proof.Machine.execUpdate data s
  | .compute len => Sys2Proof.Machine.execCompute len s
  | .append len order => Sys2Proof.Machine.execAppend len order s
  | .check len order => Sys2Proof.Machine.execCheck len order s

end Sys2Proof.Machine
end

