-- ==== Sys2Proof/Machine/HostPort.lean ====
section
/-! DEFINITION. What each action of the host does: the register window (10_state.md R30, R31), the host's own buffer
accesses (20_memory.md R40) and the reset event (70_reset_and_hazards.md R140). Each is one atomic step (R49, R50). -/

namespace Sys2Proof.Machine

/-- Offset of CMD in the register window (R30). -/
def offCmd : Nat := 0x00

/-- Offset of CRC in the register window (R30). -/
def offCrc : Nat := 0x04

/-- Offset of STATUS in the register window (R30). -/
def offStatus : Nat := 0x08

/-- A host write of the command word `w` (R31). While FAULT = 1 it is ignored and not decoded (R124); an illegal
word raises ILLEGAL_COMMAND (R66). -/
def commandWrite (w : Word) (s : State) : Host.Outcome State Fault Refusal :=
  if s.fault = true then .next s
  else
    match decode w with
    | .command i => exec i s
    | .illegal _ => .next (s.raiseFault .illegalCommand)

/-- A register write: only a 32-bit write to CMD has a meaning, and the host's index of the next command advances
with it (R24, R30). -/
def registerWrite (off width : Nat) (data : BitVec width) (s : State) : Host.Outcome State Fault Refusal :=
  if width ≠ 32 then .refused (.registerWidth width)
  else if off % 4 ≠ 0 then .refused (.registerMisaligned off)
  else if off = offCmd then commandWrite (data.setWidth 32) s.advancePc
  else if off = offCrc then .refused .writeToCrc
  else if off = offStatus then .refused .writeToStatus
  else .refused (.registerOutside off)

/-- A register read: only 32-bit reads of CRC and STATUS have a meaning (R30). -/
def registerRead (off width : Nat) (s : State) : Host.Outcome State Fault Refusal :=
  if width ≠ 32 then .refused (.registerWidth width)
  else if off % 4 ≠ 0 then .refused (.registerMisaligned off)
  else if off = offCmd then .refused .readOfCmd
  else if off = offCrc then .next (s.logRegRead (crcWord s))
  else if off = offStatus then .next (s.logRegRead (statusWord s))
  else .refused (.registerOutside off)

/-- The host writes one buffer byte (R40); FAULT does not matter (R124). -/
def bufferWrite (off : Nat) (v : Byte) (s : State) : Host.Outcome State Fault Refusal :=
  if off < s.bufSize then .next (s.writeByte off v) else .fault (.noSuchOffset off)

/-- The host reads one buffer byte (R40); FAULT does not matter (R124). -/
def bufferRead (off : Nat) (s : State) : Host.Outcome State Fault Refusal :=
  if off < s.bufSize then .next (s.logBufRead (s.readByte off)) else .fault (.noSuchOffset off)

/-- One action of the host (R50). -/
def hostAction (a : HostAction) (s : State) : Host.Outcome State Fault Refusal :=
  match a with
  | .writeReg off width data => registerWrite off width data s
  | .readReg off width => registerRead off width s
  | .writeBuf off v => bufferWrite off v s
  | .readBuf off => bufferRead off s
  | .reset => .next s.resetEngine

/-- The host takes up its next action; with none left the engine waits (R141, R150; assumption 4). -/
def hostStep (s : State) : Host.Outcome State Fault Refusal :=
  match s.pending with
  | [] => .next s
  | a :: rest => hostAction a (s.takeUp rest)

/-- The host writes the command word `w` (R31). -/
def HostAction.command (w : Word) : HostAction := .writeReg offCmd 32 w

/-- The host reads CRC: `read CRC` (R68). -/
def HostAction.readCrc : HostAction := .readReg offCrc 32

/-- The host reads STATUS: `read STATUS` (R68). -/
def HostAction.readStatus : HostAction := .readReg offStatus 32

/-- `buf[i..j] := bytes` (R68): the host writes the bytes at offsets `off`, `off + 1`, …, one an action
(assumption 6). -/
def HostAction.fill : Nat → List Byte → List HostAction
  | _, [] => []
  | off, b :: bs => .writeBuf off b :: HostAction.fill (off + 1) bs

end Sys2Proof.Machine
end

