-- ==== Sys2Proof/Machine/Step.lean ====
section
/-! DEFINITION. One step of the machine: one host action with all it makes the engine do (20_memory.md R50). -/

namespace Sys2Proof.Machine

/-- One step: the host's next action (R50), or waiting when it has none (R141). -/
def step (s : State) : Host.Outcome State Fault Refusal := hostStep s

/-- The state whose next host action writes the given command word, before whatever was pending (assumptions 1
and 13). -/
def State.withFetchWord (s : State) (nbits w : Nat) : State :=
  { s with pending := HostAction.command (tableWord nbits w) :: s.pending }

end Sys2Proof.Machine
end

