-- ==== Sys2Proof/Machine/Assembler.lean ====
section
/-! DEFINITION. The assembly syntax of a host sequence: one command a line (30_encoding.md R68, R69), and the host
actions that are not commands. -/

namespace Sys2Proof.Machine

/-- A line of assembly that names a command. The order is left out in the two pseudo-instructions (R69). -/
inductive AsmLine where
  | init
  | update (d : Nat)
  | compute (n : Nat)
  | append (n : Nat) (order : Option ByteOrder)
  | check (n : Nat) (order : Option ByteOrder)
deriving DecidableEq, Repr

/-- The order of a line: `lohi` where none is written (R69). -/
def asmOrder (o : Option ByteOrder) : ByteOrder := o.getD .lohi

/-- The command a line stands for; none is an assembly error: an operand out of range is not truncated (R68). -/
def assemble : AsmLine → Option Instr
  | .init => some .init
  | .update d => if d < 256 then some (.update (BitVec.ofNat 8 d)) else none
  | .compute n => if lenFits n then some (.compute n) else none
  | .append n o => if lenFits n then some (.append n (asmOrder o)) else none
  | .check n o => if lenFits n then some (.check n (asmOrder o)) else none

/-- The value of a digit, decimal or hexadecimal, of either case (R68; assumption 14). -/
def digitValue (c : Char) : Option Nat :=
  let n := c.toNat
  if 48 ≤ n ∧ n ≤ 57 then some (n - 48)
  else if 97 ≤ n ∧ n ≤ 102 then some (n - 87)
  else if 65 ≤ n ∧ n ≤ 70 then some (n - 55)
  else none

/-- The digits of a number in a base, after the value `acc` of those before them. -/
def parseDigits (base acc : Nat) : List Char → Option Nat
  | [] => some acc
  | c :: cs =>
    match digitValue c with
    | some d => if d < base then parseDigits base (acc * base + d) cs else none
    | none => none

/-- A number: decimal, or hexadecimal after `0x` (R68). -/
def parseNumber : List Char → Option Nat
  | [] => none
  | '0' :: 'x' :: c :: cs => parseDigits 16 0 (c :: cs)
  | c :: cs => parseDigits 10 0 (c :: cs)

/-- An order: `lohi` or `hilo` (R68). -/
def parseOrder (t : List Char) : Option ByteOrder :=
  if t = ['l', 'o', 'h', 'i'] then some .lohi
  else if t = ['h', 'i', 'l', 'o'] then some .hilo
  else none

/-- A word of a line in front of the words after it, unless it is empty. -/
def consToken (t : List Char) (ts : List (List Char)) : List (List Char) := if t = [] then ts else t :: ts

/-- The words of a line, up to a `;` that begins a comment (R68). Blanks and tabs part words; a comma is a word
(assumption 14). `word` is the word being read, its last character first. -/
def tokens (word : List Char) : List Char → List (List Char)
  | [] => consToken word.reverse []
  | c :: cs =>
    if c = ';' then consToken word.reverse []
    else if c = ' ' ∨ c = '\t' then consToken word.reverse (tokens [] cs)
    else if c = ',' then consToken word.reverse ([','] :: tokens [] cs)
    else tokens (c :: word) cs

/-- A line of text. -/
inductive ParsedLine where
  /-- No command: blank, or a comment alone. -/
  | blank
  | line (l : AsmLine)
  /-- No line of R68's table. -/
  | error
deriving DecidableEq, Repr

/-- A line, or the error, of an operand that may not parse. -/
def ParsedLine.ofOption : Option AsmLine → ParsedLine
  | some l => .line l
  | none => .error

/-- The five mnemonics, lower case (R68). -/
def mnemonicOf (t : List Char) : Option (BitVec 4) :=
  if t = ['c', 'r', 'c', '.', 'i', 'n', 'i', 't'] then some 0x1#4
  else if t = ['c', 'r', 'c', '.', 'u', 'p', 'd', 'a', 't', 'e'] then some 0x2#4
  else if t = ['c', 'r', 'c', '.', 'c', 'o', 'm', 'p', 'u', 't', 'e'] then some 0x3#4
  else if t = ['c', 'r', 'c', '.', 'a', 'p', 'p', 'e', 'n', 'd'] then some 0x4#4
  else if t = ['c', 'r', 'c', '.', 'c', 'h', 'e', 'c', 'k'] then some 0x5#4
  else none

/-- The operands of APPEND and CHECK: a length, and after a comma an order, which may be left out (R68, R69). -/
def parseLenOrder (mk : Nat → Option ByteOrder → AsmLine) : List (List Char) → ParsedLine
  | [n] => .ofOption ((parseNumber n).map fun v => mk v none)
  | [n, [','], o] =>
    match parseNumber n, parseOrder o with
    | some v, some r => .line (mk v (some r))
    | _, _ => .error
  | _ => .error

/-- The operands that stand after a mnemonic (R68). -/
def parseOperands (op : BitVec 4) (ts : List (List Char)) : ParsedLine :=
  if op = 0x1#4 then (if ts = [] then .line .init else .error)
  else if op = 0x2#4 then
    match ts with
    | [d] => .ofOption ((parseNumber d).map .update)
    | _ => .error
  else if op = 0x3#4 then
    match ts with
    | [n] => .ofOption ((parseNumber n).map .compute)
    | _ => .error
  else if op = 0x4#4 then parseLenOrder .append ts
  else parseLenOrder .check ts

/-- A line of text read by R68's table. -/
def parseLine (text : List Char) : ParsedLine :=
  match tokens [] text with
  | [] => .blank
  | t :: ts =>
    match mnemonicOf t with
    | some op => parseOperands op ts
    | none => .error

/-- The word a line of text assembles to, if it names a command and its operands are in range (R68). -/
def assembleText (text : List Char) : Option Word :=
  match parseLine text with
  | .line l => (assemble l).map encode
  | .blank => none
  | .error => none

/-- The actions of a line that is no command: `read CRC`, `read STATUS` or `reset` (R68). -/
def parseEvent (ts : List (List Char)) : Option HostAction :=
  if ts = [['r', 'e', 's', 'e', 't']] then some .reset
  else if ts = [['r', 'e', 'a', 'd'], ['C', 'R', 'C']] then some .readCrc
  else if ts = [['r', 'e', 'a', 'd'], ['S', 'T', 'A', 'T', 'U', 'S']] then some .readStatus
  else none

/-- The characters before the first `sep`, and those after it. -/
def cutAt (sep : Char) : List Char → Option (List Char × List Char)
  | [] => none
  | c :: cs => if c = sep then some ([], cs) else (cutAt sep cs).map fun p => (c :: p.1, p.2)

/-- The two offsets of `buf[i..j]` (R68). -/
def parseRange : List Char → Option (Nat × Nat)
  | 'b' :: 'u' :: 'f' :: '[' :: cs =>
    match cutAt '.' cs with
    | some (i, '.' :: js) =>
      match cutAt ']' js with
      | some (j, []) =>
        match parseNumber i, parseNumber j with
        | some i, some j => some (i, j)
        | _, _ => none
      | _ => none
    | _ => none
  | _ => none

/-- A byte as the test vectors write it: two hexadecimal digits. -/
def parseByte : List Char → Option Byte
  | [a, b] => (parseDigits 16 0 [a, b]).map (BitVec.ofNat 8)
  | _ => none

/-- The actions of `buf[i..j] := bytes`: one byte for each offset from i to j (R68; assumption 14). -/
def parseFill : List (List Char) → Option (List HostAction)
  | r :: [':', '='] :: bs =>
    match parseRange r, bs.mapM parseByte with
    | some (i, j), some bytes => if i + bytes.length = j + 1 then some (HostAction.fill i bytes) else none
    | _, _ => none
  | _ => none

/-- The host's actions a line of text stands for; none is an error (R68). -/
def hostLine (text : List Char) : Option (List HostAction) :=
  match parseLine text with
  | .blank => some []
  | .line l => (assemble l).map fun i => [HostAction.command (encode i)]
  | .error =>
    match parseEvent (tokens [] text) with
    | some a => some [a]
    | none => parseFill (tokens [] text)

end Sys2Proof.Machine
end

