-- ==== Sys2Proof/Machine/Launch.lean ====
section
/-! DEFINITION. A run: its launch state, its end and its observation (70_reset_and_hazards.md R141, R150). -/

namespace Sys2Proof.Machine

/-- A launch: the reset state, a buffer of the image's size that holds the image, and the host's actions
(R41, R141, R150). -/
def State.launch (image : List Byte) (actions : List HostAction) : State :=
  { State.reset with bufSize := image.length, mem := Memory.place [] 0 image, pending := actions }

/-- The buffer's bytes, offset 0 first (R40). -/
def State.bufferBytes (s : State) : List Byte := (List.range s.bufSize).map s.readByte

/-- The run ends when the host's sequence is exhausted (R150). -/
def State.runEnded (s : State) : Bool := s.pending.isEmpty

/-- What a run shows (R150). -/
structure Observation where
  crc : Crc
  status : Word
  buffer : List Byte
  regReads : List Word
deriving DecidableEq, Repr

/-- The observation of a run that ends in this state (R150). -/
def State.observe (s : State) : Observation :=
  ⟨s.crc, statusWord s, s.bufferBytes, s.regReads⟩

/-- The state an outcome goes on with, if it does. -/
def nextState? : Host.Outcome State Fault Refusal → Option State
  | .next s => some s
  | .fault _ => none
  | .refused _ => none

/-- The state after `n` steps, if every one of them answers a next state. -/
def runSteps : Nat → State → Option State
  | 0, s => some s
  | n + 1, s => (nextState? (step s)).bind (runSteps n)

/-- The state a run ends in: every host action still to come is performed (R150). -/
def State.runToEnd (s : State) : Option State := runSteps s.pending.length s

end Sys2Proof.Machine
end

