-- ==== Sys2Proof/Safety.lean ====
section
/-! DEFINITION. What counts as a safe run, in the terms claims use: no engine fault recorded (60_exceptions.md R124),
the host's length duties (70_reset_and_hazards.md R143), the launch premise (R141) and the machine's invariant
(10_state.md R36). -/

namespace Sys2Proof.Machine

/-- The launch premise "engine reset": CRC = 0xFFFF and STATUS = 0 (R141). -/
def State.engineReset (s : State) : Bool :=
  s.crc == 0xFFFF#16 && statusWord s == 0#32

/-- No fault is recorded (R124). -/
def State.unfaulted (s : State) : Bool := !s.fault

/-- The run that ends in this state is a faulted run (R150). -/
def State.faultedRun (s : State) : Bool := s.fault

/-- The host's length duty for a command on a buffer of `size` bytes (R143). -/
def lengthDuty (size : Nat) : Instr → Bool
  | .init => true
  | .update _ => true
  | .compute len => decide (len ≤ size)
  | .append len _ => decide (len + 2 ≤ size)
  | .check len _ => decide (2 ≤ len) && decide (len ≤ size)

/-- STATUS as R36 says it is in every reachable state, and, from R25 and R28, MATCH = 1 only with COUNT = 0. -/
abbrev State.statusInv (s : State) : Prop :=
  (s.fault = false → s.cause = 0#3) ∧
    (s.fault = true → 1 ≤ s.cause.toNat ∧ s.cause.toNat ≤ 4) ∧
    (s.count = 0#4 ∨ s.count = 2#4) ∧
    (s.matchBit = true → s.count = 0#4)

/-- The buffer's contents are in canonical form and inside the buffer. -/
abbrev State.memInv (s : State) : Prop := s.mem.wf = true ∧ s.mem.below s.bufSize = true

/-- The invariant of the machine. -/
abbrev State.inv (s : State) : Prop := s.statusInv ∧ s.memInv

end Sys2Proof.Machine
end

