-- ==== Sys2Proof/Certificates/Slice0/Obligations.lean ====
section
/-! DEFINITION. The statements for the provers. Every statement about a state holds for every `BUF_SIZE`, every
buffer contents and every host that may stand in that state; the rules they cite are those of spec/. -/

namespace Sys2Proof.Claims

open Sys2Proof.Machine

/-- OP as a number: w[3:0] (R61, R9). -/
def opOf (w : Word) : Nat := w.toNat % 16

/-- REV as a number: w[4] (R61, R9). -/
def revOf (w : Word) : Nat := w.toNat / 16 % 2

/-- RSV as a number: w[7:5] (R61, R9). -/
def rsvOf (w : Word) : Nat := w.toNat / 32 % 8

/-- DATA as a number: w[15:8] (R61, R9). -/
def dataOf (w : Word) : Nat := w.toNat / 256 % 256

/-- LEN as a number: w[31:16] (R61, R9). -/
def lenOf (w : Word) : Nat := w.toNat / 65536

/-- The illegal words as R66 lists them. -/
def IllegalWord (w : Word) : Prop :=
  opOf w = 0 ∨ 6 ≤ opOf w ∨ rsvOf w ≠ 0 ∨
    (revOf w ≠ 0 ∧ (opOf w = 1 ∨ opOf w = 2 ∨ opOf w = 3)) ∨
    (dataOf w ≠ 0 ∧ (opOf w = 1 ∨ opOf w = 3 ∨ opOf w = 4 ∨ opOf w = 5)) ∨
    (lenOf w ≠ 0 ∧ (opOf w = 1 ∨ opOf w = 2))

/-- The byte order of a REV bit as a number (R44). -/
def orderOfRev (rev : Nat) : ByteOrder := if rev = 0 then .lohi else .hilo

/-- The CAUSE code of the fault a command raises on a buffer of `size` bytes, 0 for none: the conditions of
R120 in the order of R123. -/
def causeOf (size : Nat) : Instr → Nat
  | .init => 0
  | .update _ => 0
  | .compute n => if n > size then 2 else 0
  | .append n _ => if n > size then 2 else if n + 2 > size then 3 else 0
  | .check n _ => if n < 2 then 4 else if n > size then 2 else 0

/-- Is the command an APPEND? -/
def isAppend : Instr → Bool
  | .append _ _ => true
  | .init | .update _ | .compute _ | .check _ _ => false

/-- Is the command a CHECK? -/
def isCheck : Instr → Bool
  | .check _ _ => true
  | .init | .update _ | .compute _ | .append _ _ => false

/-- How many bytes from offset 0 a command reads (R48). -/
def readsBelow : Instr → Nat
  | .init => 0
  | .update _ => 0
  | .compute n => n
  | .append n _ => n
  | .check n _ => n

/-- Does the command seed the CRC itself, so that the old CRC has no effect (R85, R88, R100, R110)? -/
def seedsItself : Instr → Bool
  | .update _ => false
  | .init | .compute _ | .append _ _ | .check _ _ => true

/-- The host writes the command `i` (R31): 32 bits to offset 0x00. -/
def hostWrites (i : Instr) : HostAction := .writeReg 0 32 (encode i)

/-- The last accepted command, after a step from `s` to `t` whose earlier last accepted command is `last`:
a command the step accepts replaces it, and reset forgets it (assumption 17, DEDUCED). -/
def lastAccepted (s t : State) (last : Option Instr) : Option Instr :=
  match s.pending with
  | .writeReg _ 32 w :: _ =>
    match decode w with
    | .command i => if s.fault = false ∧ t.fault = false then some i else last
    | .illegal _ => last
  | .reset :: _ => none
  | _ => last

/-- The states of every run (R150): any launch image, any finite sequence of host actions; with the last accepted
command since the launch or the last reset. -/
inductive Reached : State → Option Instr → Prop where
  | launch (image : List Byte) (actions : List HostAction) : Reached (State.launch image actions) none
  | step (s t : State) (last : Option Instr) (h : Reached s last) (hs : step s = .next t) :
      Reached t (lastAccepted s t last)

end Sys2Proof.Claims

open Sys2Proof Sys2Proof.Machine Sys2Proof.Claims

/-- Decoding the word of a well-formed command gives the command back, at every operand value (R61, R65, R68). -/
def Obligations.DecodeOfEncode : Prop :=
  ∀ i : Instr, i.wf = true → decode (encode i) = .command i

/-- A word that decodes to a command is that command's one word, and the command is well-formed (R64, R65). -/
def Obligations.DecodedWordIsItsCommandsEncoding : Prop :=
  ∀ (w : Word) (i : Instr), decode w = .command i → i.wf = true ∧ encode i = w

/-- R64: the five match/mask rows; a word selects a command exactly when `(w & mask) = match`; no word matches two
rows; a word that matches no row is illegal; each well-formed command has exactly one word, so a row has as many
words as its free fields have values. -/
def Obligations.OpcodeTableSelectsTheCommand : Prop :=
  (opcodeRows.map fun r => (r.mnemonic, r.pattern.toNat, r.mask.toNat)) =
      [("crc.init", 0x00000001, 0xFFFFFFFF), ("crc.update", 0x00000002, 0xFFFF00FF),
        ("crc.compute", 0x00000003, 0x0000FFFF), ("crc.append", 0x00000004, 0x0000FFEF),
        ("crc.check", 0x00000005, 0x0000FFEF)] ∧
    (∀ (w : Word) (r : OpcodeRow), r ∈ opcodeRows →
      (w &&& r.mask = r.pattern ↔ ∃ i, decode w = .command i ∧ i.row = r)) ∧
    (∀ (w : Word) (r r' : OpcodeRow), r ∈ opcodeRows → r' ∈ opcodeRows → w &&& r.mask = r.pattern →
      w &&& r'.mask = r'.pattern → r = r') ∧
    (∀ w : Word, (∀ r ∈ opcodeRows, w &&& r.mask ≠ r.pattern) ↔ (decode w).isIllegal = true) ∧
    (∀ i : Instr, i.wf = true → ∃ w, decode w = .command i ∧ ∀ w', decode w' = .command i → w' = w)

/-- R65, on numbers: the decode function, for every word. -/
def Obligations.DecodeFollowsItsPseudocode : Prop :=
  ∀ w : Word,
    (rsvOf w ≠ 0 → (decode w).isIllegal = true) ∧
    (rsvOf w = 0 →
      (opOf w = 1 →
        if revOf w = 0 ∧ dataOf w = 0 ∧ lenOf w = 0 then decode w = .command .init
        else (decode w).isIllegal = true) ∧
      (opOf w = 2 →
        if revOf w = 0 ∧ lenOf w = 0 then decode w = .command (.update (BitVec.ofNat 8 (dataOf w)))
        else (decode w).isIllegal = true) ∧
      (opOf w = 3 →
        if revOf w = 0 ∧ dataOf w = 0 then decode w = .command (.compute (lenOf w))
        else (decode w).isIllegal = true) ∧
      (opOf w = 4 →
        if dataOf w = 0 then decode w = .command (.append (lenOf w) (orderOfRev (revOf w)))
        else (decode w).isIllegal = true) ∧
      (opOf w = 5 →
        if dataOf w = 0 then decode w = .command (.check (lenOf w) (orderOfRev (revOf w)))
        else (decode w).isIllegal = true) ∧
      (opOf w = 0 ∨ 6 ≤ opOf w → (decode w).isIllegal = true))

/-- R70: the encoding examples, from their text, from the command and back, and the illegal examples. -/
def Obligations.EncodingExamples : Prop :=
  (["crc.init", "crc.update 0x01", "crc.update 0x0A", "crc.compute 6", "crc.append 6", "crc.append 6, lohi",
      "crc.append 6, hilo", "crc.check 8", "crc.check 8, lohi", "crc.check 8, hilo", "crc.append 11"].map
    fun line => assembleText line.toList) =
    [0x00000001#32, 0x00000102#32, 0x00000A02#32, 0x00060003#32, 0x00060004#32, 0x00060004#32, 0x00060014#32,
      0x00080005#32, 0x00080005#32, 0x00080015#32, 0x000B0004#32].map some ∧
  ([.init, .update 0x01#8, .update 0x0A#8, .compute 6, .append 6 .lohi, .append 6 .hilo, .check 8 .lohi,
      .check 8 .hilo, .append 11 .lohi] : List Instr).map encode =
    [0x00000001#32, 0x00000102#32, 0x00000A02#32, 0x00060003#32, 0x00060004#32, 0x00060014#32, 0x00080005#32,
      0x00080015#32, 0x000B0004#32] ∧
  ([0x00000001#32, 0x00000102#32, 0x00000A02#32, 0x00060003#32, 0x00060004#32, 0x00060014#32, 0x00080005#32,
      0x00080015#32, 0x000B0004#32] : List Word).map decode =
    ([.init, .update 0x01#8, .update 0x0A#8, .compute 6, .append 6 .lohi, .append 6 .hilo, .check 8 .lohi,
      .check 8 .hilo, .append 11 .lohi] : List Instr).map Decoded.command ∧
  ([0x00000000#32, 0x00000011#32, 0x00000021#32, 0x00060103#32] : List Word).map
    (fun w => (decode w).isIllegal) = [true, true, true, true]

/-- R68 and R69: the word of each line of assembly, for every operand in range and with the order left out; an
operand out of range is an error. -/
def Obligations.AssembledWords : Prop :=
  ((assemble .init).map fun i => (encode i).toNat) = some 1 ∧
  (∀ d, (assemble (.update d)).map (fun i => (encode i).toNat) =
    if d < 256 then some (d * 256 + 2) else none) ∧
  (∀ n, (assemble (.compute n)).map (fun i => (encode i).toNat) =
    if n < 65536 then some (n * 65536 + 3) else none) ∧
  (∀ n r, r < 2 → (assemble (.append n (some (orderOfRev r)))).map (fun i => (encode i).toNat) =
    if n < 65536 then some (n * 65536 + r * 16 + 4) else none) ∧
  (∀ n r, r < 2 → (assemble (.check n (some (orderOfRev r)))).map (fun i => (encode i).toNat) =
    if n < 65536 then some (n * 65536 + r * 16 + 5) else none) ∧
  (∀ n, assemble (.append n none) = assemble (.append n (some .lohi))) ∧
  (∀ n, assemble (.check n none) = assemble (.check n (some .lohi)))

/-- A step runs the decoded command: when the host's next action writes a word that decodes to `i` and no fault is
recorded, the step is `exec i` of the state in which the host has taken up that action and its index of the next
command has advanced (R24, R31). -/
def Obligations.StepRunsTheDecodedCommand : Prop :=
  ∀ (s : State) (w : Word) (rest : List HostAction) (i : Instr),
    s.pending = .writeReg 0 32 w :: rest → s.fault = false → decode w = .command i →
    step s = exec i { s with pending := rest, pc := s.pc + 1 }

/-- R66: the illegal words, class by class; written while FAULT = 0, one raises ILLEGAL_COMMAND and has no other
effect; while FAULT = 1 it is ignored; every other word is exactly one command. -/
def Obligations.IllegalWordRaisesIllegalCommand : Prop :=
  (∀ w : Word, IllegalWord w ↔ (decode w).isIllegal = true) ∧
  (∀ w : Word, ¬ IllegalWord w ↔ ∃ i, decode w = .command i) ∧
  ∀ (s : State) (w : Word) (rest : List HostAction), s.pending = .writeReg 0 32 w :: rest → IllegalWord w →
    (s.fault = false →
      step s = .next { s with pending := rest, pc := s.pc + 1, fault := true, cause := 1#3 }) ∧
    (s.fault = true → step s = .next { s with pending := rest, pc := s.pc + 1 })

/-- R124: the faulted state. Every command and every command write is ignored, whatever the word; register reads
return the current values; the host's own buffer accesses are as ever; and only a reset ends it. -/
def Obligations.FaultedEngineIgnoresCommands : Prop :=
  ∀ s : State, s.fault = true →
    (∀ i, exec i s = .next s) ∧
    (∀ w rest, s.pending = .writeReg 0 32 w :: rest →
      step s = .next { s with pending := rest, pc := s.pc + 1 }) ∧
    (∀ rest, s.pending = .readReg 4 32 :: rest →
      step s = .next { s with pending := rest, regReads := s.regReads ++ [crcWord s] }) ∧
    (∀ rest, s.pending = .readReg 8 32 :: rest →
      step s = .next { s with pending := rest, regReads := s.regReads ++ [statusWord s] }) ∧
    (∀ off v rest, s.pending = .writeBuf off v :: rest → off < s.bufSize →
      step s = .next { s with pending := rest, mem := s.mem.write off v }) ∧
    (∀ off rest, s.pending = .readBuf off :: rest → off < s.bufSize →
      step s = .next { s with pending := rest, bufReads := s.bufReads ++ [s.mem.read off] }) ∧
    (∀ t, step s = .next t → s.pending.head? ≠ some .reset →
      t.fault = true ∧ t.cause = s.cause ∧ t.crc = s.crc ∧ t.matchBit = s.matchBit ∧ t.count = s.count)

/-- R26 and R125: FAULT is set by a command that raises a fault and by nothing else; nothing but reset clears FAULT
or CAUSE; no second fault replaces the first one's code; FAULT is 0 after reset; and a command write always
completes, so the host keeps control. -/
def Obligations.OnlyResetClearsAFault : Prop :=
  (∀ s t : State, step s = .next t → s.fault = false → t.fault = true →
    ∃ w rest, s.pending = .writeReg 0 32 w :: rest ∧ t.cause ≠ 0#3) ∧
  (∀ s t : State, step s = .next t → s.fault = true → t.fault = false →
    ∃ rest, s.pending = .reset :: rest) ∧
  (∀ s t : State, step s = .next t → s.fault = true → s.pending.head? ≠ some .reset → t.cause = s.cause) ∧
  (∀ (s : State) (rest : List HostAction), s.pending = .reset :: rest →
    ∃ t, step s = .next t ∧ t.fault = false ∧ t.cause = 0#3) ∧
  State.reset.fault = false ∧
  (∀ (s : State) (w : Word) (rest : List HostAction), s.pending = .writeReg 0 32 w :: rest →
    (∃ t, step s = .next t ∧ t.pending = rest) ∧
    (s.fault = true → step s = .next { s with pending := rest, pc := s.pc + 1 }))

/-- R140: the reset event, in every state; and no command performs one. -/
def Obligations.ResetEventRestoresTheRegisters : Prop :=
  (∀ (s : State) (rest : List HostAction), s.pending = .reset :: rest →
    step s = .next { s with pending := rest, crc := 0xFFFF#16, matchBit := false, fault := false,
                            cause := 0#3, count := 0#4 }) ∧
  (∀ s t : State, step s = .next t → s.fault = true → (t.fault = false ∨ t.cause ≠ s.cause) →
    ∃ rest, s.pending = .reset :: rest) ∧
  (∀ (i : Instr) (s t : State), exec i s = .next t → s.fault = true → t.fault = true ∧ t.cause = s.cause) ∧
  (∀ s t : State, exec .init s = .next t →
    t = { s with crc := t.crc, matchBit := t.matchBit, count := t.count })

/-- R35: the values after reset, as fields and as the host reads them; the reset event leaves every buffer byte;
at launch the bytes hold the launch image. -/
def Obligations.ResetValuesAndLaunchImage : Prop :=
  State.reset.crc = 0xFFFF#16 ∧ State.reset.matchBit = false ∧ State.reset.fault = false ∧
  State.reset.cause = 0#3 ∧ State.reset.count = 0#4 ∧
  statusWord State.reset = 0x00000000#32 ∧ crcWord State.reset = 0x0000FFFF#32 ∧
  (∀ (s t : State) (rest : List HostAction), s.pending = .reset :: rest → step s = .next t →
    statusWord t = 0x00000000#32 ∧ crcWord t = 0x0000FFFF#32 ∧ ∀ a, t.readByte a = s.readByte a) ∧
  (∀ (image : List Byte) (actions : List HostAction) (a : Nat) (h : a < image.length),
    (State.launch image actions).readByte a = image[a])

/-- A launch (R41, R141, R150): the engine is reset, the buffer has the image's size and holds its bytes, the
host's actions are still to come, and the machine's invariant holds. -/
def Obligations.LaunchIsEngineResetWithItsImage : Prop :=
  ∀ (image : List Byte) (actions : List HostAction),
    (State.launch image actions).engineReset = true ∧
    (State.launch image actions).bufSize = image.length ∧
    (State.launch image actions).bufferBytes = image ∧
    (State.launch image actions).pending = actions ∧
    (State.launch image actions).inv

/-- With no host action left the engine waits: the step changes nothing. The model's choice, DEDUCED from R141 and
R150 (assumption 4). -/
def Obligations.EngineWaitsForTheHost : Prop :=
  ∀ s : State, s.pending = [] → step s = .next s

/-- R30: exactly three register accesses are admitted; the two reads return `zext_32(CRC)` and the STATUS word and
have no other effect; every other access is refused. -/
def Obligations.RegisterWindowAdmitsThreeAccesses : Prop :=
  ∀ (s : State) (rest : List HostAction),
    (∀ (off width : Nat) (data : BitVec width), s.pending = .writeReg off width data :: rest →
      ((off = 0 ∧ width = 32) → ∃ t, step s = .next t) ∧
      (¬ (off = 0 ∧ width = 32) → ∃ r, step s = .refused r)) ∧
    (∀ off width : Nat, s.pending = .readReg off width :: rest →
      ((off = 4 ∧ width = 32) →
        step s = .next { s with pending := rest, regReads := s.regReads ++ [s.crc.setWidth 32] }) ∧
      ((off = 8 ∧ width = 32) →
        step s = .next { s with pending := rest, regReads := s.regReads ++ [statusWord s] }) ∧
      (¬ ((off = 4 ∨ off = 8) ∧ width = 32) → ∃ r, step s = .refused r))

/-- R23 and R29: the STATUS word as a number, field by field, its reserved bits, and the CRC word. -/
def Obligations.StatusAndCrcWordsAsRead : Prop :=
  ∀ s : State,
    (statusWord s).toNat =
      (if s.matchBit then 1 else 0) + (if s.fault then 2 else 0) + s.cause.toNat * 4 + s.count.toNat * 256 ∧
    (statusWord s).toNat / 32 % 8 = 0 ∧ (statusWord s).toNat / 4096 = 0 ∧
    (crcWord s).toNat = s.crc.toNat ∧ (crcWord s).toNat / 65536 = 0

/-- R85: `crc.init`. Its word; what it does in every state in which a command runs, the buffer untouched; no other
word with OP = 1 is legal. -/
def Obligations.InitSetsTheSeed : Prop :=
  encode .init = 0x00000001#32 ∧
  (∀ s : State, s.fault = false →
    exec .init s = .next { s with crc := 0xFFFF#16, matchBit := false, count := 0#4 }) ∧
  (∀ w : Word, opOf w = 1 → w ≠ 0x00000001#32 → (decode w).isIllegal = true)

/-- R86: `crc.update D`. Its word; what it does in every state in which a command runs, from whatever CRC holds,
the buffer untouched; the words with OP = 2 that are illegal; the rule's corner cases. -/
def Obligations.UpdateAbsorbsOneByte : Prop :=
  (∀ d : Byte, (encode (.update d)).toNat = d.toNat * 256 + 2) ∧
  (∀ (s : State) (d : Byte), s.fault = false →
    exec (.update d) s = .next { s with crc := crcStep s.crc d, matchBit := false, count := 0#4 }) ∧
  (∀ w : Word, opOf w = 2 → (revOf w ≠ 0 ∨ rsvOf w ≠ 0 ∨ lenOf w ≠ 0) → (decode w).isIllegal = true) ∧
  crcStep 0xFFFF#16 0x01#8 = 0x807E#16 ∧ crcStep 0xFFFF#16 0x00#8 = 0x40BF#16 ∧
  crcStep 0xFFFF#16 0xFF#8 = 0x00FF#16 ∧
  crcStep (crcStep 0xFFFF#16 0x01#8) 0x02#8 = 0xE181#16 ∧
  crcStep (crcStep 0xFFFF#16 0x02#8) 0x01#8 = 0x10C1#16

/-- R88: `crc.compute N`. Its word; its result when the buffer has N bytes, which does not depend on the old CRC;
READ_BOUNDS otherwise; the illegal words with OP = 3; N = 0; the rule's example. -/
def Obligations.ComputeLeavesTheCrcOfNBytes : Prop :=
  (∀ n, n < 65536 → (encode (.compute n)).toNat = n * 65536 + 3) ∧
  (∀ (s : State) (n : Nat), s.fault = false → n ≤ s.bufSize →
    exec (.compute n) s = .next { s with crc := crc16 s.readByte n, matchBit := false, count := 0#4 }) ∧
  (∀ (s : State) (n : Nat), s.fault = false → n > s.bufSize →
    exec (.compute n) s = .next { s with fault := true, cause := 2#3 }) ∧
  (∀ w : Word, opOf w = 3 → (revOf w ≠ 0 ∨ rsvOf w ≠ 0 ∨ dataOf w ≠ 0) → (decode w).isIllegal = true) ∧
  (∀ s : State, crc16 s.readByte 0 = 0xFFFF#16) ∧
  (nextState? (exec (.compute 6) (State.launch [0xD4, 0xE3, 0x39, 0x8C, 0x23, 0xA4] []))).map
    (fun t => t.crc) = some 0x2502#16 ∧
  (nextState? (exec (.compute 8) (State.launch [0xD4, 0xE3, 0x39, 0x8C, 0x23, 0xA4, 0x02, 0x25] []))).map
    (fun t => t.crc) = some 0x0000#16

/-- R100: `crc.append N, O`. Its word; what it writes when the buffer has N + 2 bytes, at offsets N and N + 1;
READ_BOUNDS and WRITE_BOUNDS, in that order and with no byte written; the illegal words with OP = 4; N = 0; the
rule's example in both orders. -/
def Obligations.AppendWritesTheCrcAfterNBytes : Prop :=
  (∀ n r, n < 65536 → r < 2 → (encode (.append n (orderOfRev r))).toNat = n * 65536 + r * 16 + 4) ∧
  (∀ (s : State) (n : Nat) (o : ByteOrder), s.fault = false → n + 2 ≤ s.bufSize →
    exec (.append n o) s =
      .next { s with mem := (s.mem.write n (crcBytes (crc16 s.readByte n) o).1).write (n + 1)
                        (crcBytes (crc16 s.readByte n) o).2,
                     crc := crc16 s.readByte n, matchBit := false, count := 2#4 }) ∧
  (∀ (s : State) (n : Nat) (o : ByteOrder), s.fault = false → n > s.bufSize →
    exec (.append n o) s = .next { s with fault := true, cause := 2#3 }) ∧
  (∀ (s : State) (n : Nat) (o : ByteOrder), s.fault = false → n ≤ s.bufSize → n + 2 > s.bufSize →
    exec (.append n o) s = .next { s with fault := true, cause := 3#3 }) ∧
  (∀ w : Word, opOf w = 4 → (rsvOf w ≠ 0 ∨ dataOf w ≠ 0) → (decode w).isIllegal = true) ∧
  (∀ o, crcBytes 0xFFFF#16 o = (0xFF#8, 0xFF#8)) ∧
  (∀ c : Crc, lo8 c = hi8 c → crcBytes c .lohi = crcBytes c .hilo) ∧
  (nextState? (exec (.append 6 .lohi) (State.launch [0xD4, 0xE3, 0x39, 0x8C, 0x23, 0xA4, 0x00, 0x00] []))).map
    State.bufferBytes = some [0xD4, 0xE3, 0x39, 0x8C, 0x23, 0xA4, 0x02, 0x25] ∧
  (nextState? (exec (.append 6 .hilo) (State.launch [0xD4, 0xE3, 0x39, 0x8C, 0x23, 0xA4, 0x00, 0x00] []))).map
    State.bufferBytes = some [0xD4, 0xE3, 0x39, 0x8C, 0x23, 0xA4, 0x25, 0x02]

/-- R110: `crc.check N, O`. Its word; its result when the buffer has N bytes and N is at least 2, CRC being the
computed value; SHORT_FRAME and READ_BOUNDS, in that order; the illegal words with OP = 5; N = 2; the rule's
example in both orders. -/
def Obligations.CheckComparesTheTrailingBytes : Prop :=
  (∀ n r, n < 65536 → r < 2 → (encode (.check n (orderOfRev r))).toNat = n * 65536 + r * 16 + 5) ∧
  (∀ (s : State) (n : Nat) (o : ByteOrder), s.fault = false → 2 ≤ n → n ≤ s.bufSize →
    exec (.check n o) s =
      .next { s with crc := crc16 s.readByte (n - 2),
                     matchBit := decide ((s.readByte (n - 2), s.readByte (n - 1)) =
                       crcBytes (crc16 s.readByte (n - 2)) o),
                     count := 0#4 }) ∧
  (∀ (s : State) (n : Nat) (o : ByteOrder), s.fault = false → n < 2 →
    exec (.check n o) s = .next { s with fault := true, cause := 4#3 }) ∧
  (∀ (s : State) (n : Nat) (o : ByteOrder), s.fault = false → 2 ≤ n → n > s.bufSize →
    exec (.check n o) s = .next { s with fault := true, cause := 2#3 }) ∧
  (∀ w : Word, opOf w = 5 → (rsvOf w ≠ 0 ∨ dataOf w ≠ 0) → (decode w).isIllegal = true) ∧
  (∀ (s : State) (o : ByteOrder), s.fault = false → 2 ≤ s.bufSize →
    (nextState? (exec (.check 2 o) s)).map (fun t => t.matchBit) =
      some (decide (s.readByte 0 = 0xFF#8 ∧ s.readByte 1 = 0xFF#8))) ∧
  (nextState? (exec (.check 8 .lohi) (State.launch [0xD4, 0xE3, 0x39, 0x8C, 0x23, 0xA4, 0x02, 0x25] []))).map
    (fun t => (t.crc, statusWord t)) = some (0x2502#16, 0x00000001#32) ∧
  (nextState? (exec (.check 8 .hilo) (State.launch [0xD4, 0xE3, 0x39, 0x8C, 0x23, 0xA4, 0x02, 0x25] []))).map
    (fun t => (t.crc, t.matchBit)) = some (0x2502#16, false)

/-- R120 and R123: every command of a running engine raises the fault of the first condition that holds, with its
CAUSE code, or none; a fault records its code and nothing else; an illegal word raises code 1 before any other
condition is looked at; a command that is legal never raises code 1. -/
def Obligations.FaultConditionsAndPriority : Prop :=
  (∀ (i : Instr) (s : State), s.fault = false →
    ∃ t, exec i s = .next t ∧ t.cause.toNat = (if t.fault then causeOf s.bufSize i else s.cause.toNat) ∧
      (t.fault = true ↔ causeOf s.bufSize i ≠ 0) ∧
      (t.fault = true → t = { s with fault := true, cause := BitVec.ofNat 3 (causeOf s.bufSize i) })) ∧
  (∀ (s : State) (w : Word) (rest : List HostAction), s.pending = .writeReg 0 32 w :: rest → s.fault = false →
    IllegalWord w →
    step s = .next { s with pending := rest, pc := s.pc + 1, fault := true, cause := 1#3 })

/-- R122: fault entry. When a command write raises a fault, FAULT is set, CAUSE gets a code of 1 to 4, and CRC,
MATCH, COUNT and every buffer byte keep their values; of the host only its own progress shows. -/
def Obligations.FaultEntryWritesOnlyFaultAndCause : Prop :=
  ∀ (s t : State) (w : Word) (rest : List HostAction), s.pending = .writeReg 0 32 w :: rest → s.fault = false →
    step s = .next t → t.fault = true →
    ∃ code : BitVec 3, 1 ≤ code.toNat ∧ code.toNat ≤ 4 ∧
      t = { s with pending := rest, pc := s.pc + 1, fault := true, cause := code }

/-- R80, on numbers: one iteration of the inner loop. -/
def Obligations.CrcShiftOnNumbers : Prop :=
  ∀ c : Crc, (crcShift1 c).toNat =
    if c.toNat % 2 = 1 then (c.toNat / 2) ^^^ 0xA001 else c.toNat / 2

/-- R81: the byte is XORed into bits 7:0, bits 15:8 stay, and exactly eight iterations run. -/
def Obligations.CrcStepIsEightShifts : Prop :=
  ∀ (c : Crc) (b : Byte), ∃ t : Crc, lo8 t = lo8 c ^^^ b ∧ hi8 t = hi8 c ∧
    crcStep c b = Nat.iterate crcShift1 8 t

/-- R82: `crc16` absorbs the bytes at offsets 0 to n - 1 in ascending order, each once, from the seed 0xFFFF, with
no final step; for n = 0 it is the seed. -/
def Obligations.Crc16FoldsTheBytesInOrder : Prop :=
  (∀ (read : Nat → Byte) (n : Nat),
    crc16 read n = (List.range n).foldl (fun c i => crcStep c (read i)) 0xFFFF#16) ∧
  (∀ read : Nat → Byte, crc16 read 0 = 0xFFFF#16)

/-- R83: `crc_shift1` bit by bit: a shift right by one, with bits 15, 13 and 0 XORed by the old bit 0, so bit 15
is the old bit 0; `crc_step` is a bijection on the CRC for each byte; the two worked values. -/
def Obligations.CrcArithmeticLaws : Prop :=
  (∀ (c : Crc) (i : Nat), i < 16 →
    (crcShift1 c).getLsbD i =
      ((c.getLsbD (i + 1) && decide (i ≠ 15)) ^^
        (c.getLsbD 0 && (decide (i = 15) || decide (i = 13) || decide (i = 0))))) ∧
  (∀ c : Crc, (crcShift1 c).getLsbD 15 = c.getLsbD 0) ∧
  (∀ b : Byte, (∀ c c' : Crc, crcStep c b = crcStep c' b → c = c') ∧ ∀ d : Crc, ∃ c, crcStep c b = d) ∧
  crcShift1 0x0001#16 = 0xA001#16 ∧ crcShift1 0xFFFF#16 = 0xDFFE#16

/-- R87: the streaming law. From CRC = 0xFFFF, a stream of UPDATEs leaves `crc16` of the bytes; and COMPUTE of k
bytes followed by UPDATEs of the bytes at offsets k to n - 1 leaves the CRC of n bytes. The rule's example. -/
def Obligations.StreamingLaw : Prop :=
  (∀ (bytes : List Byte) (s : State) (rest : List HostAction), s.fault = false → s.crc = 0xFFFF#16 →
    s.pending = bytes.map (fun b => hostWrites (.update b)) ++ rest →
    ∃ t, runSteps bytes.length s = some t ∧ t.pending = rest ∧ t.fault = false ∧
      t.crc = crc16 (fun i => bytes.getD i 0#8) bytes.length) ∧
  (∀ (k n : Nat) (s : State) (rest : List HostAction), s.fault = false → k < 65536 → k ≤ n → n ≤ s.bufSize →
    s.pending =
      hostWrites (.compute k) :: (List.range' k (n - k)).map (fun i => hostWrites (.update (s.readByte i))) ++ rest →
    ∃ t, runSteps (n - k + 1) s = some t ∧ t.pending = rest ∧ t.fault = false ∧ t.crc = crc16 s.readByte n) ∧
  (∀ image : List Byte, image = [0xD4, 0xE3, 0x39, 0x8C, 0x23, 0xA4] →
    ((runSteps 1 (State.launch image [hostWrites (.compute 3)])).map fun t => t.crc) = some 0xDAB8#16 ∧
    ((runSteps 4 (State.launch image
        [hostWrites (.compute 3), hostWrites (.update 0x8C#8), hostWrites (.update 0x23#8), hostWrites (.update 0xA4#8)])).map
      fun t => t.crc) = some 0x2502#16)

/-- R101, on numbers: the placement of the two bytes of a CRC. -/
def Obligations.CrcBytePlacement : Prop :=
  ∀ c : Crc,
    (crcBytes c .lohi).1.toNat = c.toNat % 256 ∧ (crcBytes c .lohi).2.toNat = c.toNat / 256 ∧
    (crcBytes c .hilo).1.toNat = c.toNat / 256 ∧ (crcBytes c .hilo).2.toNat = c.toNat % 256

/-- R103, item 1: after an accepted APPEND, a CHECK of the frame and its CRC bytes in the same order sets MATCH and
leaves CRC at the same value. -/
def Obligations.AppendThenCheckMatches : Prop :=
  ∀ (s : State) (n : Nat) (o : ByteOrder), s.memInv → s.fault = false → n + 2 ≤ s.bufSize →
    ∃ t, exec (.append n o) s = .next t ∧ t.crc = crc16 s.readByte n ∧
      exec (.check (n + 2) o) t = .next { t with matchBit := true, count := 0#4 }

/-- R103, item 2: with the other order, MATCH = 1 only when the CRC's two bytes are equal (and then it is). -/
def Obligations.AppendThenCheckInTheOtherOrder : Prop :=
  ∀ (s : State) (n : Nat) (o o' : ByteOrder), s.memInv → s.fault = false → n + 2 ≤ s.bufSize → o ≠ o' →
    ∃ t, exec (.append n o) s = .next t ∧
      exec (.check (n + 2) o') t =
        .next { t with matchBit := decide (lo8 (crc16 s.readByte n) = hi8 (crc16 s.readByte n)), count := 0#4 }

/-- R103, item 3: after an accepted APPEND low byte first, COMPUTE of the frame and its CRC bytes gives 0x0000. -/
def Obligations.AppendedFrameHasZeroResidue : Prop :=
  ∀ (s : State) (n : Nat), s.memInv → s.fault = false → n + 2 ≤ s.bufSize →
    ∃ t, exec (.append n .lohi) s = .next t ∧
      exec (.compute (n + 2)) t = .next { t with crc := 0x0000#16, count := 0#4 }

/-- R49: an APPEND repeated with the same LEN and REV changes nothing more: the same two bytes are written again. -/
def Obligations.AppendIsIdempotent : Prop :=
  ∀ (s : State) (n : Nat) (o : ByteOrder), s.memInv → s.fault = false → n + 2 ≤ s.bufSize →
    ∃ t, exec (.append n o) s = .next t ∧ exec (.append n o) t = .next t

/-- R28: COUNT is 2 after an accepted APPEND and 0 after every other accepted command; a faulting or ignored
command, and everything the host does but reset, leaves it; no step writes another value; 0 after reset. -/
def Obligations.CountIsTheBytesWritten : Prop :=
  (∀ (i : Instr) (s : State), ∃ t, exec i s = .next t ∧
    t.count = if t.fault then s.count else if isAppend i then 2#4 else 0#4) ∧
  (∀ s t : State, step s = .next t →
    (t.count = s.count ∨ t.count = 0#4 ∨ t.count = 2#4) ∧
    (t.fault = true → t.count = s.count) ∧
    (t.count ≠ s.count → (∃ w rest, s.pending = .writeReg 0 32 w :: rest) ∨ ∃ rest, s.pending = .reset :: rest)) ∧
  State.reset.count = 0#4

/-- R25: MATCH after an accepted CHECK is the result of its comparison, and 0 after every other accepted command; a
faulting or ignored command, or an illegal word, leaves it; no command reads it; 0 after reset; the host reads it in
STATUS bit 0. -/
def Obligations.MatchIsTheCheckResult : Prop :=
  (∀ (i : Instr) (s : State), isCheck i = false → ∃ t, exec i s = .next t ∧
    t.matchBit = if t.fault then s.matchBit else false) ∧
  (∀ (n : Nat) (o : ByteOrder) (s : State), ∃ t, exec (.check n o) s = .next t ∧
    (t.fault = true → t.matchBit = s.matchBit) ∧
    (t.fault = false → (t.matchBit = true ↔
      (s.readByte (n - 2), s.readByte (n - 1)) = crcBytes t.crc o))) ∧
  (∀ (i : Instr) (s : State) (m : Bool), ∃ t, exec i s = .next t ∧
    exec i { s with matchBit := m } = .next { t with matchBit := if t.fault then m else t.matchBit }) ∧
  (∀ s t : State, step s = .next t → t.fault = true → t.matchBit = s.matchBit) ∧
  State.reset.matchBit = false ∧
  (∀ s : State, (statusWord s).getLsbD 0 = s.matchBit)

/-- R48 with R88, R100 and R110: the outcome of a command that seeds itself depends on the buffer's size and the
bytes below its LEN alone: not on the old CRC, MATCH or COUNT, on the bytes APPEND overwrites, or on any byte from
LEN on. -/
def Obligations.ResultsDependOnTheFrameBytesOnly : Prop :=
  ∀ (i : Instr) (s s' : State), seedsItself i = true → s.fault = false → s'.fault = false →
    s.bufSize = s'.bufSize → (∀ a, a < readsBelow i → s.readByte a = s'.readByte a) →
    ∃ t t', exec i s = .next t ∧ exec i s' = .next t' ∧ t.fault = t'.fault ∧
      (t.fault = true → t.cause = t'.cause) ∧
      (t.fault = false → t.crc = t'.crc ∧ t.matchBit = t'.matchBit ∧ t.count = t'.count)

/-- R144: an accepted command overwrites MATCH and COUNT, whatever they held, and a faulting one leaves them, and
CRC, as they were. -/
def Obligations.AcceptedCommandOverwritesResults : Prop :=
  ∀ (i : Instr) (s : State) (m : Bool) (c : BitVec 4), s.fault = false →
    ∃ t, exec i s = .next t ∧
      (t.fault = false → exec i { s with matchBit := m, count := c } = .next t) ∧
      (t.fault = true → t.crc = s.crc ∧ t.matchBit = s.matchBit ∧ t.count = s.count)

/-- The frame of the commands that store nothing, INIT, UPDATE, COMPUTE and CHECK: every buffer byte and everything
of the host stays, and either FAULT and CAUSE stay (accepted or ignored) or CRC, MATCH and COUNT do (faulted). -/
def Obligations.FrameOfTheNonStoringCommands : Prop :=
  ∀ (i : Instr) (s t : State), isAppend i = false → exec i s = .next t →
    (∀ a, t.readByte a = s.readByte a) ∧ t.bufSize = s.bufSize ∧
    t.pending = s.pending ∧ t.pc = s.pc ∧ t.regReads = s.regReads ∧ t.bufReads = s.bufReads ∧
    ((t.fault = s.fault ∧ t.cause = s.cause) ∨
      (t.crc = s.crc ∧ t.matchBit = s.matchBit ∧ t.count = s.count))

/-- The frame of APPEND (R100, R146): the bytes stored are those at offsets LEN and LEN + 1, and when it is
accepted they read as the two CRC bytes; every other byte reads as before, and all of them when it is not accepted;
everything of the host stays. -/
def Obligations.FrameOfAppend : Prop :=
  ∀ (n : Nat) (o : ByteOrder) (s : State), s.memInv →
    ∃ t, exec (.append n o) s = .next t ∧
      (∀ a, a ≠ n → a ≠ n + 1 → t.readByte a = s.readByte a) ∧
      (t.fault = true → ∀ a, t.readByte a = s.readByte a) ∧
      (t.fault = false → t.readByte n = (crcBytes (crc16 s.readByte n) o).1 ∧
        t.readByte (n + 1) = (crcBytes (crc16 s.readByte n) o).2) ∧
      t.bufSize = s.bufSize ∧ t.pending = s.pending ∧ t.pc = s.pc ∧ t.regReads = s.regReads ∧
      t.bufReads = s.bufReads ∧
      ((t.fault = s.fault ∧ t.cause = s.cause) ∨
        (t.crc = s.crc ∧ t.matchBit = s.matchBit ∧ t.count = s.count))

/-- The host's own buffer accesses (R40, R49): a write inside the buffer is read back, and changes no other byte and
no engine register; a read changes nothing but what the host has read. The model's choice: an access outside the
buffer stops the machine (assumption 7). -/
def Obligations.HostBufferAccesses : Prop :=
  ∀ (s : State) (rest : List HostAction) (off : Nat), s.memInv →
    (∀ v : Byte, s.pending = .writeBuf off v :: rest → off < s.bufSize →
      ∃ t, step s = .next t ∧ t.readByte off = v ∧ (∀ a, a ≠ off → t.readByte a = s.readByte a) ∧
        t = { s with pending := rest, mem := t.mem }) ∧
    (s.pending = .readBuf off :: rest → off < s.bufSize →
      step s = .next { s with pending := rest, bufReads := s.bufReads ++ [s.readByte off] }) ∧
    (∀ v : Byte, s.pending = .writeBuf off v :: rest ∨ s.pending = .readBuf off :: rest → s.bufSize ≤ off →
      step s = .fault (.noSuchOffset off))

/-- Every step keeps the machine's invariant (R36, and the buffer's canonical form): in every state that meets it,
reached by a run or not. -/
def Obligations.EveryStepKeepsTheInvariant : Prop :=
  ∀ s t : State, s.inv → step s = .next t → t.inv

/-- The state right after reset meets the machine's invariant. -/
def Obligations.ResetMeetsTheInvariant : Prop := State.reset.inv

/-- R36: in every state of every run, FAULT = 0 implies CAUSE = 0, FAULT = 1 implies CAUSE is in 1 to 4, COUNT is in
{0, 2}, MATCH = 1 implies that the last accepted command was a CHECK, and COUNT = 2 that it was an APPEND. The last
accepted command is the model's reading of R36 (`lastAccepted`): a reset forgets it (assumption 17, DEDUCED). -/
def Obligations.StatusInEveryReachableState : Prop :=
  ∀ (s : State) (last : Option Instr), Reached s last →
    (s.fault = false → s.cause = 0#3) ∧
    (s.fault = true → 1 ≤ s.cause.toNat ∧ s.cause.toNat ≤ 4) ∧
    (s.count = 0#4 ∨ s.count = 2#4) ∧
    (s.matchBit = true → ∃ n o, last = some (.check n o)) ∧
    (s.count = 2#4 → ∃ n o, last = some (.append n o))

/-- Each step takes up one host action; the host's index of the next command advances by one on a command write,
ignored and illegal ones too, and on nothing else, and no command changes it (R24); nothing changes `BUF_SIZE`
(R8). -/
def Obligations.StepTakesUpOneHostAction : Prop :=
  (∀ s t : State, step s = .next t →
    t.pending = s.pending.tail ∧ t.bufSize = s.bufSize ∧
    ((∃ w rest, s.pending = .writeReg 0 32 w :: rest) → t.pc = s.pc + 1) ∧
    ((¬ ∃ w rest, s.pending = .writeReg 0 32 w :: rest) → t.pc = s.pc)) ∧
  (∀ (i : Instr) (s t : State), exec i s = .next t → t.pc = s.pc)

/-- R143: from an unfaulted engine, a command faults exactly when it breaks its length duty; and a host that keeps
its duties in every command it writes, however many, never sees a fault. -/
def Obligations.DutifulHostNeverFaults : Prop :=
  (∀ (s : State) (n : Nat) (o : ByteOrder), s.fault = false →
    ∃ t u v, exec (.compute n) s = .next t ∧ exec (.append n o) s = .next u ∧ exec (.check n o) s = .next v ∧
      (t.fault = false ↔ n ≤ s.bufSize) ∧ (u.fault = false ↔ n + 2 ≤ s.bufSize) ∧
      (v.fault = false ↔ 2 ≤ n ∧ n ≤ s.bufSize)) ∧
  (∀ (commands : List Instr) (s : State) (rest : List HostAction), s.fault = false →
    (∀ i ∈ commands, i.wf = true ∧ lengthDuty s.bufSize i = true) →
    s.pending = commands.map hostWrites ++ rest →
    ∃ t, runSteps commands.length s = some t ∧ t.fault = false ∧ t.cause = s.cause ∧ t.pending = rest ∧
      t.pc = s.pc + commands.length)

/-- R50 and R148: the register reads that follow a command write at once return that command's CRC and STATUS, and
a command sees the buffer byte the host wrote just before it. -/
def Obligations.CommandEffectsAreSeenInOrder : Prop :=
  (∀ (s : State) (i : Instr) (rest : List HostAction), i.wf = true → s.fault = false →
    s.pending = hostWrites i :: .readReg 4 32 :: .readReg 8 32 :: rest →
    ∃ t, exec i { s with pending := rest, pc := s.pc + 1 } = .next t ∧
      runSteps 3 s = some { t with regReads := s.regReads ++ [crcWord t, statusWord t] }) ∧
  (∀ (s : State) (off : Nat) (v : Byte) (i : Instr) (rest : List HostAction), i.wf = true → s.fault = false →
    off < s.bufSize → s.pending = .writeBuf off v :: hostWrites i :: rest →
    runSteps 2 s =
      nextState? (exec i { s with pending := rest, pc := s.pc + 1, mem := s.mem.write off v }))
end

