-- ==== Sys2Proof/Laws/Crc.lean ====
section
/-! SUPPORT. The laws of the CRC primitives that callers cite instead of unfolding them. -/

namespace Sys2Proof.Machine

@[simp] theorem crc16_zero (read : Nat → Byte) : crc16 read 0 = crcSeed := rfl

@[simp] theorem crc16_succ (read : Nat → Byte) (n : Nat) : crc16 read (n + 1) = crcStep (crc16 read n) (read n) :=
  rfl

/-- The CRC of `n` bytes depends on those bytes only. -/
theorem crc16_congr (read read' : Nat → Byte) (n : Nat) (h : ∀ i, i < n → read i = read' i) :
    crc16 read n = crc16 read' n := by
  induction n with
  | zero => rfl
  | succ n ih => rw [crc16_succ, crc16_succ, ih fun i hi => h i (by omega), h n (by omega)]

theorem crcBytes_lohi (c : Crc) : crcBytes c .lohi = (lo8 c, hi8 c) := rfl

theorem crcBytes_hilo (c : Crc) : crcBytes c .hilo = (hi8 c, lo8 c) := rfl

end Sys2Proof.Machine
end

