-- ==== Sys2Proof/Laws/State.lean ====
section
/-! SUPPORT. The fields of a state after each named update: one lemma per field per update, and the fields of
`State.reset`. -/

namespace Sys2Proof.Machine

section

variable (s : State)

@[simp] theorem State.writeByte_crc (i : Nat) (v : Byte) : (s.writeByte i v).crc = s.crc := rfl
@[simp] theorem State.writeByte_matchBit (i : Nat) (v : Byte) : (s.writeByte i v).matchBit = s.matchBit := rfl
@[simp] theorem State.writeByte_fault (i : Nat) (v : Byte) : (s.writeByte i v).fault = s.fault := rfl
@[simp] theorem State.writeByte_cause (i : Nat) (v : Byte) : (s.writeByte i v).cause = s.cause := rfl
@[simp] theorem State.writeByte_count (i : Nat) (v : Byte) : (s.writeByte i v).count = s.count := rfl
@[simp] theorem State.writeByte_bufSize (i : Nat) (v : Byte) : (s.writeByte i v).bufSize = s.bufSize := rfl
@[simp] theorem State.writeByte_mem (i : Nat) (v : Byte) : (s.writeByte i v).mem = s.mem.write i v := rfl
@[simp] theorem State.writeByte_pending (i : Nat) (v : Byte) : (s.writeByte i v).pending = s.pending := rfl
@[simp] theorem State.writeByte_pc (i : Nat) (v : Byte) : (s.writeByte i v).pc = s.pc := rfl
@[simp] theorem State.writeByte_regReads (i : Nat) (v : Byte) : (s.writeByte i v).regReads = s.regReads := rfl
@[simp] theorem State.writeByte_bufReads (i : Nat) (v : Byte) : (s.writeByte i v).bufReads = s.bufReads := rfl

@[simp] theorem State.complete_crc (c : Crc) (m : Bool) (n : BitVec 4) : (s.complete c m n).crc = c := rfl
@[simp] theorem State.complete_matchBit (c : Crc) (m : Bool) (n : BitVec 4) : (s.complete c m n).matchBit = m := rfl
@[simp] theorem State.complete_fault (c : Crc) (m : Bool) (n : BitVec 4) : (s.complete c m n).fault = s.fault := rfl
@[simp] theorem State.complete_cause (c : Crc) (m : Bool) (n : BitVec 4) : (s.complete c m n).cause = s.cause := rfl
@[simp] theorem State.complete_count (c : Crc) (m : Bool) (n : BitVec 4) : (s.complete c m n).count = n := rfl
@[simp] theorem State.complete_bufSize (c : Crc) (m : Bool) (n : BitVec 4) : (s.complete c m n).bufSize = s.bufSize := rfl
@[simp] theorem State.complete_mem (c : Crc) (m : Bool) (n : BitVec 4) : (s.complete c m n).mem = s.mem := rfl
@[simp] theorem State.complete_pending (c : Crc) (m : Bool) (n : BitVec 4) : (s.complete c m n).pending = s.pending := rfl
@[simp] theorem State.complete_pc (c : Crc) (m : Bool) (n : BitVec 4) : (s.complete c m n).pc = s.pc := rfl
@[simp] theorem State.complete_regReads (c : Crc) (m : Bool) (n : BitVec 4) : (s.complete c m n).regReads = s.regReads := rfl
@[simp] theorem State.complete_bufReads (c : Crc) (m : Bool) (n : BitVec 4) : (s.complete c m n).bufReads = s.bufReads := rfl

@[simp] theorem State.raiseFault_crc (w : FaultCause) : (s.raiseFault w).crc = s.crc := rfl
@[simp] theorem State.raiseFault_matchBit (w : FaultCause) : (s.raiseFault w).matchBit = s.matchBit := rfl
@[simp] theorem State.raiseFault_fault (w : FaultCause) : (s.raiseFault w).fault = true := rfl
@[simp] theorem State.raiseFault_cause (w : FaultCause) : (s.raiseFault w).cause = w.code := rfl
@[simp] theorem State.raiseFault_count (w : FaultCause) : (s.raiseFault w).count = s.count := rfl
@[simp] theorem State.raiseFault_bufSize (w : FaultCause) : (s.raiseFault w).bufSize = s.bufSize := rfl
@[simp] theorem State.raiseFault_mem (w : FaultCause) : (s.raiseFault w).mem = s.mem := rfl
@[simp] theorem State.raiseFault_pending (w : FaultCause) : (s.raiseFault w).pending = s.pending := rfl
@[simp] theorem State.raiseFault_pc (w : FaultCause) : (s.raiseFault w).pc = s.pc := rfl
@[simp] theorem State.raiseFault_regReads (w : FaultCause) : (s.raiseFault w).regReads = s.regReads := rfl
@[simp] theorem State.raiseFault_bufReads (w : FaultCause) : (s.raiseFault w).bufReads = s.bufReads := rfl

@[simp] theorem State.resetEngine_crc : s.resetEngine.crc = 0xFFFF#16 := rfl
@[simp] theorem State.resetEngine_matchBit : s.resetEngine.matchBit = false := rfl
@[simp] theorem State.resetEngine_fault : s.resetEngine.fault = false := rfl
@[simp] theorem State.resetEngine_cause : s.resetEngine.cause = 0#3 := rfl
@[simp] theorem State.resetEngine_count : s.resetEngine.count = 0#4 := rfl
@[simp] theorem State.resetEngine_bufSize : s.resetEngine.bufSize = s.bufSize := rfl
@[simp] theorem State.resetEngine_mem : s.resetEngine.mem = s.mem := rfl
@[simp] theorem State.resetEngine_pending : s.resetEngine.pending = s.pending := rfl
@[simp] theorem State.resetEngine_pc : s.resetEngine.pc = s.pc := rfl
@[simp] theorem State.resetEngine_regReads : s.resetEngine.regReads = s.regReads := rfl
@[simp] theorem State.resetEngine_bufReads : s.resetEngine.bufReads = s.bufReads := rfl

@[simp] theorem State.takeUp_crc (r : List HostAction) : (s.takeUp r).crc = s.crc := rfl
@[simp] theorem State.takeUp_matchBit (r : List HostAction) : (s.takeUp r).matchBit = s.matchBit := rfl
@[simp] theorem State.takeUp_fault (r : List HostAction) : (s.takeUp r).fault = s.fault := rfl
@[simp] theorem State.takeUp_cause (r : List HostAction) : (s.takeUp r).cause = s.cause := rfl
@[simp] theorem State.takeUp_count (r : List HostAction) : (s.takeUp r).count = s.count := rfl
@[simp] theorem State.takeUp_bufSize (r : List HostAction) : (s.takeUp r).bufSize = s.bufSize := rfl
@[simp] theorem State.takeUp_mem (r : List HostAction) : (s.takeUp r).mem = s.mem := rfl
@[simp] theorem State.takeUp_pending (r : List HostAction) : (s.takeUp r).pending = r := rfl
@[simp] theorem State.takeUp_pc (r : List HostAction) : (s.takeUp r).pc = s.pc := rfl
@[simp] theorem State.takeUp_regReads (r : List HostAction) : (s.takeUp r).regReads = s.regReads := rfl
@[simp] theorem State.takeUp_bufReads (r : List HostAction) : (s.takeUp r).bufReads = s.bufReads := rfl

@[simp] theorem State.advancePc_crc : s.advancePc.crc = s.crc := rfl
@[simp] theorem State.advancePc_matchBit : s.advancePc.matchBit = s.matchBit := rfl
@[simp] theorem State.advancePc_fault : s.advancePc.fault = s.fault := rfl
@[simp] theorem State.advancePc_cause : s.advancePc.cause = s.cause := rfl
@[simp] theorem State.advancePc_count : s.advancePc.count = s.count := rfl
@[simp] theorem State.advancePc_bufSize : s.advancePc.bufSize = s.bufSize := rfl
@[simp] theorem State.advancePc_mem : s.advancePc.mem = s.mem := rfl
@[simp] theorem State.advancePc_pending : s.advancePc.pending = s.pending := rfl
@[simp] theorem State.advancePc_pc : s.advancePc.pc = s.pc + 1 := rfl
@[simp] theorem State.advancePc_regReads : s.advancePc.regReads = s.regReads := rfl
@[simp] theorem State.advancePc_bufReads : s.advancePc.bufReads = s.bufReads := rfl

@[simp] theorem State.logRegRead_crc (w : Word) : (s.logRegRead w).crc = s.crc := rfl
@[simp] theorem State.logRegRead_matchBit (w : Word) : (s.logRegRead w).matchBit = s.matchBit := rfl
@[simp] theorem State.logRegRead_fault (w : Word) : (s.logRegRead w).fault = s.fault := rfl
@[simp] theorem State.logRegRead_cause (w : Word) : (s.logRegRead w).cause = s.cause := rfl
@[simp] theorem State.logRegRead_count (w : Word) : (s.logRegRead w).count = s.count := rfl
@[simp] theorem State.logRegRead_bufSize (w : Word) : (s.logRegRead w).bufSize = s.bufSize := rfl
@[simp] theorem State.logRegRead_mem (w : Word) : (s.logRegRead w).mem = s.mem := rfl
@[simp] theorem State.logRegRead_pending (w : Word) : (s.logRegRead w).pending = s.pending := rfl
@[simp] theorem State.logRegRead_pc (w : Word) : (s.logRegRead w).pc = s.pc := rfl
@[simp] theorem State.logRegRead_regReads (w : Word) : (s.logRegRead w).regReads = s.regReads ++ [w] := rfl
@[simp] theorem State.logRegRead_bufReads (w : Word) : (s.logRegRead w).bufReads = s.bufReads := rfl

@[simp] theorem State.logBufRead_crc (b : Byte) : (s.logBufRead b).crc = s.crc := rfl
@[simp] theorem State.logBufRead_matchBit (b : Byte) : (s.logBufRead b).matchBit = s.matchBit := rfl
@[simp] theorem State.logBufRead_fault (b : Byte) : (s.logBufRead b).fault = s.fault := rfl
@[simp] theorem State.logBufRead_cause (b : Byte) : (s.logBufRead b).cause = s.cause := rfl
@[simp] theorem State.logBufRead_count (b : Byte) : (s.logBufRead b).count = s.count := rfl
@[simp] theorem State.logBufRead_bufSize (b : Byte) : (s.logBufRead b).bufSize = s.bufSize := rfl
@[simp] theorem State.logBufRead_mem (b : Byte) : (s.logBufRead b).mem = s.mem := rfl
@[simp] theorem State.logBufRead_pending (b : Byte) : (s.logBufRead b).pending = s.pending := rfl
@[simp] theorem State.logBufRead_pc (b : Byte) : (s.logBufRead b).pc = s.pc := rfl
@[simp] theorem State.logBufRead_regReads (b : Byte) : (s.logBufRead b).regReads = s.regReads := rfl
@[simp] theorem State.logBufRead_bufReads (b : Byte) : (s.logBufRead b).bufReads = s.bufReads ++ [b] := rfl

end

@[simp] theorem State.reset_crc : State.reset.crc = 0xFFFF#16 := rfl
@[simp] theorem State.reset_matchBit : State.reset.matchBit = false := rfl
@[simp] theorem State.reset_fault : State.reset.fault = false := rfl
@[simp] theorem State.reset_cause : State.reset.cause = 0#3 := rfl
@[simp] theorem State.reset_count : State.reset.count = 0#4 := rfl
@[simp] theorem State.reset_bufSize : State.reset.bufSize = Config.resetBufSize := rfl
@[simp] theorem State.reset_mem : State.reset.mem = [] := rfl
@[simp] theorem State.reset_pending : State.reset.pending = [] := rfl
@[simp] theorem State.reset_pc : State.reset.pc = 0 := rfl
@[simp] theorem State.reset_regReads : State.reset.regReads = [] := rfl
@[simp] theorem State.reset_bufReads : State.reset.bufReads = [] := rfl

end Sys2Proof.Machine
end

