-- ==== Sys2Proof/Laws/Exec.lean ====
section
/-! SUPPORT. What each shared operation, each command and one step can do: one inversion lemma each. -/

namespace Sys2Proof.Machine

/-- A guarded command answers what it runs to, or the same state when the engine is faulted. -/
theorem ifAccepting_cases {s : State} {run o : Host.Outcome State Fault Refusal} (h : ifAccepting s run = o) :
    (s.fault = true ∧ o = .next s) ∨ (s.fault = false ∧ o = run) := by
  unfold ifAccepting at h
  split at h
  · exact .inl ⟨‹_›, h.symm⟩
  · rename_i hf
    exact .inr ⟨by simpa using hf, h.symm⟩

/-- What a command's next state can be: ignored, faulted, or completed with the registers and the buffer's bytes
it writes. -/
inductive ExecResult (s : State) : State → Prop where
  | ignored (h : s.fault = true) : ExecResult s s
  | faulted (h : s.fault = false) (why : FaultCause) : ExecResult s (s.raiseFault why)
  | completed (h : s.fault = false) (c : Crc) (m : Bool) : ExecResult s (s.complete c m 0#4)
  | appended (h : s.fault = false) (len : Nat) (hl : len + 2 ≤ s.bufSize) (c : Crc) (b b' : Byte) :
      ExecResult s (((s.writeByte len b).writeByte (len + 1) b').complete c false 2#4)

/-- Every command answers a next state, and it is one of these. -/
theorem exec_cases (i : Instr) (s : State) : ∃ t, exec i s = .next t ∧ ExecResult s t := by
  cases hf : s.fault with
  | true => exact ⟨s, by cases i <;> simp [exec, execInit, execUpdate, execCompute, execAppend, execCheck, ifAccepting, hf], .ignored hf⟩
  | false =>
    cases i with
    | init => exact ⟨_, by simp only [exec, execInit, ifAccepting, hf]; rfl, .completed hf crcSeed false⟩
    | update d =>
      exact ⟨_, by simp only [exec, execUpdate, ifAccepting, hf]; rfl, .completed hf (crcStep s.crc d) false⟩
    | compute len =>
      by_cases h : len > s.bufSize
      · exact ⟨_, by simp only [exec, execCompute, ifAccepting, hf, if_pos h]; rfl, .faulted hf _⟩
      · exact ⟨_, by simp only [exec, execCompute, ifAccepting, hf, if_neg h]; rfl, .completed hf _ _⟩
    | append len order =>
      by_cases h : len > s.bufSize
      · exact ⟨_, by simp only [exec, execAppend, ifAccepting, hf, if_pos h]; rfl, .faulted hf _⟩
      · by_cases h2 : len + 2 > s.bufSize
        · exact ⟨_, by simp only [exec, execAppend, ifAccepting, hf, if_neg h, if_pos h2]; rfl, .faulted hf _⟩
        · exact ⟨_, by simp only [exec, execAppend, ifAccepting, hf, if_neg h, if_neg h2]; rfl,
            .appended hf _ (by omega) _ _ _⟩
    | check len order =>
      by_cases h : len < 2
      · exact ⟨_, by simp only [exec, execCheck, ifAccepting, hf, if_pos h]; rfl, .faulted hf _⟩
      · by_cases h2 : len > s.bufSize
        · exact ⟨_, by simp only [exec, execCheck, ifAccepting, hf, if_neg h, if_pos h2]; rfl, .faulted hf _⟩
        · exact ⟨_, by simp only [exec, execCheck, ifAccepting, hf, if_neg h, if_neg h2]; rfl,
            .completed hf _ _⟩

/-- A command write answers a next state: one of a command's, or the illegal-command fault. -/
theorem commandWrite_cases (w : Word) (s : State) : ∃ t, commandWrite w s = .next t ∧ ExecResult s t := by
  cases hf : s.fault with
  | true => exact ⟨s, by simp [commandWrite, hf], .ignored hf⟩
  | false =>
    cases hd : decode w with
    | command i =>
      obtain ⟨t, ht, hr⟩ := exec_cases i s
      exact ⟨t, by simp [commandWrite, hf, hd, ht], hr⟩
    | illegal why => exact ⟨_, by simp [commandWrite, hf, hd], .faulted hf .illegalCommand⟩

/-- What one host action's next state can be. -/
inductive ActionResult (s : State) : HostAction → State → Prop where
  | command (w : Word) (t : State) (h : ExecResult s.advancePc t) :
      ActionResult s (.writeReg 0 32 w) t
  | regRead (off : Nat) (w : Word) : ActionResult s (.readReg off 32) (s.logRegRead w)
  | bufWrite (off : Nat) (v : Byte) (h : off < s.bufSize) : ActionResult s (.writeBuf off v) (s.writeByte off v)
  | bufRead (off : Nat) (h : off < s.bufSize) :
      ActionResult s (.readBuf off) (s.logBufRead (s.readByte off))
  | reset : ActionResult s .reset s.resetEngine

/-- One host action that answers a next state does one of these. -/
theorem hostAction_cases {a : HostAction} {s t : State} (h : hostAction a s = .next t) : ActionResult s a t := by
  cases a with
  | writeReg off width data =>
    simp only [hostAction, registerWrite] at h
    split at h
    · cases h
    · rename_i hw
      obtain rfl : width = 32 := by simpa using hw
      split at h
      · cases h
      · split at h
        · rename_i ho
          obtain rfl : off = 0 := ho
          obtain ⟨t', ht, hr⟩ := commandWrite_cases (data.setWidth 32) s.advancePc
          rw [ht] at h
          cases h
          exact .command data _ hr
        · split at h
          · cases h
          · split at h <;> cases h
  | readReg off width =>
    simp only [hostAction, registerRead] at h
    split at h
    · cases h
    · rename_i hw
      obtain rfl : width = 32 := by simpa using hw
      split at h
      · cases h
      · split at h
        · cases h
        · split at h
          · cases h; exact .regRead off _
          · split at h
            · cases h; exact .regRead off _
            · cases h
  | writeBuf off v =>
    simp only [hostAction, bufferWrite] at h
    split at h
    · cases h; exact .bufWrite off v ‹_›
    · cases h
  | readBuf off =>
    simp only [hostAction, bufferRead] at h
    split at h
    · cases h; exact .bufRead off ‹_›
    · cases h
  | reset => cases h; exact .reset

/-- A step waits, when the host has no action left, or performs the host's next action. -/
theorem step_cases {s t : State} (h : step s = .next t) :
    (s.pending = [] ∧ t = s) ∨
      ∃ a rest, s.pending = a :: rest ∧ ActionResult (s.takeUp rest) a t := by
  unfold step hostStep at h
  cases hp : s.pending with
  | nil =>
    rw [hp] at h
    cases h
    exact .inl ⟨rfl, rfl⟩
  | cons a rest =>
    rw [hp] at h
    exact .inr ⟨a, rest, rfl, hostAction_cases h⟩

end Sys2Proof.Machine
end

