-- ==== Sys2Proof/Laws/Memory.lean ====
section
/-! SUPPORT. The laws of the buffer: a read after a write, the canonical form every write keeps, and that equal
contents are equal data. -/

namespace Sys2Proof.Machine

theorem Memory.read_cons_same (i : Nat) (v : Byte) (m : Memory) (h : Memory.read m i = Config.unlistedByte) :
    Memory.read (Memory.cons i v m) i = v := by
  unfold Memory.cons
  split
  · simp_all
  · simp [Memory.read]

theorem Memory.read_cons_other (i j : Nat) (v : Byte) (m : Memory) (h : i ≠ j) :
    Memory.read (Memory.cons i v m) j = Memory.read m j := by
  unfold Memory.cons
  split
  · rfl
  · simp [Memory.read, h]

/-- Below the offset a canonical memory starts from, every byte is unlisted. -/
theorem Memory.read_of_wfFrom (m : Memory) (lo i : Nat) (h : Memory.wfFrom lo m = true) (hi : i < lo) :
    Memory.read m i = Config.unlistedByte := by
  induction m generalizing lo with
  | nil => rfl
  | cons c m ih =>
    obtain ⟨a, v⟩ := c
    simp only [Memory.wfFrom, Bool.and_eq_true, decide_eq_true_eq] at h
    rw [Memory.read, if_neg (by omega)]
    exact ih (a + 1) h.2 (by omega)

theorem Memory.wfFrom_mono (m : Memory) (lo lo' : Nat) (hl : lo' ≤ lo) (h : Memory.wfFrom lo m = true) :
    Memory.wfFrom lo' m = true := by
  cases m with
  | nil => rfl
  | cons c m =>
    simp only [Memory.wfFrom, Bool.and_eq_true, decide_eq_true_eq] at h ⊢
    exact ⟨⟨by omega, h.1.2⟩, h.2⟩

theorem Memory.wfFrom_cons (lo i : Nat) (v : Byte) (m : Memory) (hl : lo ≤ i)
    (h : Memory.wfFrom (i + 1) m = true) : Memory.wfFrom lo (Memory.cons i v m) = true := by
  unfold Memory.cons
  split
  · exact Memory.wfFrom_mono m (i + 1) lo (by omega) h
  · simp [Memory.wfFrom, *]

/-- A write keeps the canonical form. -/
theorem Memory.wfFrom_write (m : Memory) (lo i : Nat) (v : Byte) (hl : lo ≤ i)
    (h : Memory.wfFrom lo m = true) : Memory.wfFrom lo (Memory.write m i v) = true := by
  induction m generalizing lo with
  | nil => exact Memory.wfFrom_cons lo i v [] hl rfl
  | cons c m ih =>
    obtain ⟨a, x⟩ := c
    have hc := h
    simp only [Memory.wfFrom, Bool.and_eq_true, decide_eq_true_eq] at h
    rw [Memory.write]
    split
    · exact Memory.wfFrom_cons lo i v _ hl
        (by simp only [Memory.wfFrom, Bool.and_eq_true, decide_eq_true_eq]; exact ⟨⟨by omega, h.1.2⟩, h.2⟩)
    · split
      · subst_vars
        exact Memory.wfFrom_cons lo _ v m h.1.1 h.2
      · simp only [Memory.wfFrom, Bool.and_eq_true, decide_eq_true_eq]
        exact ⟨h.1, ih (a + 1) (by omega) h.2⟩

theorem Memory.wf_write (m : Memory) (i : Nat) (v : Byte) (h : m.wf = true) : (m.write i v).wf = true :=
  Memory.wfFrom_write m 0 i v (Nat.zero_le i) h

theorem Memory.below_cell (size a : Nat) (v : Byte) (m : Memory) :
    Memory.below size ((a, v) :: m) = true ↔ a < size ∧ Memory.below size m = true := by
  unfold Memory.below
  rw [List.all_cons, Bool.and_eq_true, decide_eq_true_eq]

theorem Memory.below_cons (size i : Nat) (v : Byte) (m : Memory) (hi : i < size)
    (h : Memory.below size m = true) : Memory.below size (Memory.cons i v m) = true := by
  unfold Memory.cons
  split
  · exact h
  · exact (Memory.below_cell size i v m).2 ⟨hi, h⟩

/-- A write inside the buffer keeps every listed offset inside it. -/
theorem Memory.below_write (size : Nat) (m : Memory) (i : Nat) (v : Byte) (hi : i < size)
    (h : m.below size = true) : (m.write i v).below size = true := by
  induction m with
  | nil => exact Memory.below_cons size i v [] hi rfl
  | cons c m ih =>
    obtain ⟨a, x⟩ := c
    have hm := (Memory.below_cell size a x m).1 h
    rw [Memory.write]
    split
    · exact Memory.below_cons size i v _ hi h
    · split
      · exact Memory.below_cons size i v m hi hm.2
      · exact (Memory.below_cell size a x _).2 ⟨hm.1, ih hm.2⟩

/-- A byte reads as it was last written (on canonical memories: `Memory.wf`). -/
theorem Memory.read_write_same (m : Memory) (i : Nat) (v : Byte) (h : m.wf = true) :
    (m.write i v).read i = v := by
  suffices H : ∀ (m : Memory) (lo : Nat), Memory.wfFrom lo m = true → Memory.read (Memory.write m i v) i = v from
    H m 0 h
  intro m
  induction m with
  | nil => intro lo _; exact Memory.read_cons_same i v [] rfl
  | cons c m ih =>
    intro lo h
    obtain ⟨a, x⟩ := c
    simp only [Memory.wfFrom, Bool.and_eq_true, decide_eq_true_eq] at h
    rw [Memory.write]
    split
    · refine Memory.read_cons_same i v _ ?_
      rw [Memory.read, if_neg (by omega)]
      exact Memory.read_of_wfFrom m (a + 1) i h.2 (by omega)
    · split
      · subst_vars
        exact Memory.read_cons_same _ v m (Memory.read_of_wfFrom m _ _ h.2 (by omega))
      · rw [Memory.read, if_neg (by omega)]
        exact ih (a + 1) h.2

/-- A write leaves every other byte as it was. -/
theorem Memory.read_write_other (m : Memory) (i j : Nat) (v : Byte) (h : i ≠ j) :
    (m.write i v).read j = m.read j := by
  induction m with
  | nil => exact Memory.read_cons_other i j v [] h
  | cons c m ih =>
    obtain ⟨a, x⟩ := c
    rw [Memory.write]
    split
    · exact Memory.read_cons_other i j v _ h
    · split
      · subst_vars
        rw [Memory.read_cons_other _ j v m h, Memory.read, if_neg h]
      · simp only [Memory.read, ih]

/-- The canonical memories from `lo` on are determined by what they read as. -/
theorem Memory.ext_from (m m' : Memory) (lo : Nat) (h : Memory.wfFrom lo m = true)
    (h' : Memory.wfFrom lo m' = true) (hr : ∀ i, Memory.read m i = Memory.read m' i) : m = m' := by
  induction m generalizing m' lo with
  | nil =>
    cases m' with
    | nil => rfl
    | cons c m' =>
      obtain ⟨a, v⟩ := c
      have := hr a
      simp_all [Memory.wfFrom, Memory.read]
  | cons c m ih =>
    obtain ⟨a, v⟩ := c
    simp only [Memory.wfFrom, Bool.and_eq_true, decide_eq_true_eq] at h
    cases m' with
    | nil =>
      have := hr a
      simp_all [Memory.read]
    | cons c' m' =>
      obtain ⟨b, w⟩ := c'
      simp only [Memory.wfFrom, Bool.and_eq_true, decide_eq_true_eq] at h'
      have hab : a = b := by
        rcases Nat.lt_trichotomy a b with hlt | heq | hgt
        · have h1 := hr a
          rw [Memory.read, if_pos rfl, Memory.read, if_neg (by omega),
            Memory.read_of_wfFrom m' (b + 1) a h'.2 (by omega)] at h1
          exact absurd h1 h.1.2
        · exact heq
        · have h1 := hr b
          rw [Memory.read, if_neg (by omega), Memory.read_of_wfFrom m (a + 1) b h.2 (by omega), Memory.read,
            if_pos rfl] at h1
          exact absurd h1.symm h'.1.2
      subst hab
      have hv : v = w := by simpa [Memory.read] using hr a
      subst hv
      have hm : m = m' := by
        refine ih m' (a + 1) h.2 h'.2 fun i => ?_
        by_cases hi : a = i
        · subst hi
          rw [Memory.read_of_wfFrom m (a + 1) a h.2 (by omega), Memory.read_of_wfFrom m' (a + 1) a h'.2 (by omega)]
        · simpa [Memory.read, hi] using hr i
      rw [hm]

/-- Canonical memories that read the same everywhere are equal. -/
theorem Memory.ext_wf (m m' : Memory) (h : m.wf = true) (h' : m'.wf = true)
    (hr : ∀ i, m.read i = m'.read i) : m = m' :=
  Memory.ext_from m m' 0 h h' hr

theorem Memory.wf_place (bs : List Byte) (m : Memory) (off : Nat) (h : m.wf = true) :
    (m.place off bs).wf = true := by
  induction bs generalizing m off with
  | nil => exact h
  | cons b bs ih => exact ih _ _ (Memory.wf_write m off b h)

theorem Memory.below_place (size : Nat) (bs : List Byte) (m : Memory) (off : Nat)
    (hs : off + bs.length ≤ size) (h : m.below size = true) : (m.place off bs).below size = true := by
  induction bs generalizing m off with
  | nil => exact h
  | cons b bs ih =>
    rw [List.length_cons] at hs
    exact ih _ _ (by omega) (Memory.below_write size m off b (by omega) h)

/-- The empty memory, that of `State.reset`, is canonical. -/
theorem State.reset_mem_wf : State.reset.mem.wf = true := rfl

end Sys2Proof.Machine
end

