-- ==== Sys2Proof/Laws/PerInstr.lean ====
section
/-! SUPPORT. Statements made per instruction: what the fixed fields of a command's word hold (30_encoding.md R61,
R63). -/

namespace Sys2Proof.Laws.FixedFields

/-- The OP field of a command's word is the command's OP value and the RSV field is 0. -/
def Statement (i : Instr) : Prop := fieldOp (encode i) = i.op ∧ fieldRsv (encode i) = 0#3

/-- The fields of a command word that the encoder puts together. -/
theorem commandWord_fields (len : BitVec 16) (data : Byte) (rev : BitVec 1) (op : BitVec 4) :
    fieldOp (commandWord len data rev op) = op ∧ fieldRsv (commandWord len data rev op) = 0#3 := by
  constructor
  · apply BitVec.eq_of_getLsbD_eq
    intro i hi
    simp only [fieldOp, commandWord, BitVec.getLsbD_extractLsb', BitVec.getLsbD_append]
    simp [hi]
  · apply BitVec.eq_of_getLsbD_eq
    intro i hi
    simp only [fieldRsv, commandWord, BitVec.getLsbD_extractLsb', BitVec.getLsbD_append]
    have h1 : ¬ 5 + i < 4 := by omega
    have h2 : ¬ 5 + i - 4 < 1 := by omega
    have h3 : 5 + i - 4 - 1 < 3 := by omega
    simp [h1, h2, h3]

theorem init : Statement .init := commandWord_fields _ _ _ _

theorem update (data : Byte) : Statement (.update data) := commandWord_fields _ _ _ _

theorem compute (len : Nat) : Statement (.compute len) := commandWord_fields _ _ _ _

theorem append (len : Nat) (order : ByteOrder) : Statement (.append len order) := commandWord_fields _ _ _ _

theorem check (len : Nat) (order : ByteOrder) : Statement (.check len order) := commandWord_fields _ _ _ _

end Sys2Proof.Laws.FixedFields
end

