-- ==== Sys2Proof/Laws/Run.lean ====
section
/-! SUPPORT. A run, one step at a time. -/

namespace Sys2Proof.Machine

@[simp] theorem runSteps_zero (s : State) : runSteps 0 s = some s := rfl

/-- A run whose first step answers `t` goes on from `t`. -/
theorem runSteps_succ (n : Nat) (s t : State) (h : step s = .next t) : runSteps (n + 1) s = runSteps n t := by
  rw [runSteps, h]
  rfl

/-- Two runs, one after the other. -/
theorem runSteps_add (m n : Nat) (s : State) : runSteps (m + n) s = (runSteps m s).bind (runSteps n) := by
  induction m generalizing s with
  | zero => rw [Nat.zero_add]; rfl
  | succ m ih =>
    rw [Nat.succ_add, runSteps, runSteps]
    cases nextState? (step s) with
    | none => rfl
    | some t => exact ih t

end Sys2Proof.Machine
end

