-- ==== Sys2Proof/Tests/Slice0.lean ====
section
/-! SUPPORT. Tests of the model against the spec's own vectors (95_test_vectors.md X1 to X3, V1 to V5, P1 to P7,
30_encoding.md R70), and for each statement with hypotheses a state and operands that meet them. Every expected
value is the spec's. -/

-- The proofs below are elaborated one after another: a thread for each would ask for a stack for each at once.
set_option Elab.async false

namespace Sys2Proof.Tests

open Sys2Proof.Machine Sys2Proof.Claims

/-- V5's frame with its CRC, low byte first. -/
def frame8 : List Byte := [0xD4, 0xE3, 0x39, 0x8C, 0x23, 0xA4, 0x02, 0x25]

/-- The launch state on `frame8`, `BUF_SIZE` = 8 (V5). -/
def s8 (actions : List HostAction) : State := State.launch frame8 actions

/-- The faulted state of V5: CRC = 2502, STATUS = 0000000E. -/
def faulted8 (actions : List HostAction) : State :=
  { s8 actions with crc := 0x2502#16, fault := true, cause := 3#3 }

/-- CRC, STATUS and buffer after one command on a state (the columns of V5). -/
def afterCommand (w : Word) (s : State) : Option (Crc × Word × List Byte) :=
  (nextState? (commandWrite w s)).map fun t => (t.crc, statusWord t, t.bufferBytes)

/-! The well-formedness check: one ill-formed term for each form that has a check (R62: LEN is at most 65535). -/

theorem test_wf_compute_refuses_65536 : (Instr.compute 65536).wf = false ∧ (Instr.compute 65535).wf = true := by
  decide

theorem test_wf_append_refuses_65536 :
    (Instr.append 65536 .lohi).wf = false ∧ (Instr.append 65535 .hilo).wf = true := by decide

theorem test_wf_check_refuses_65536 :
    (Instr.check 65536 .hilo).wf = false ∧ (Instr.check 65535 .lohi).wf = true := by decide

theorem test_wf_init_update : Instr.init.wf = true ∧ (Instr.update 0xFF#8).wf = true := by decide

/-! Decoding, each word written out bit by bit from R61: LEN, DATA, RSV, REV, OP. -/

theorem test_decode_init : decode 0b0000000000000000_00000000_000_0_0001#32 = .command .init := by decide

theorem test_decode_update : decode 0b0000000000000000_10100101_000_0_0010#32 = .command (.update 0xA5#8) := by
  decide

theorem test_decode_compute : decode 0b1000000000000001_00000000_000_0_0011#32 = .command (.compute 32769) := by
  decide

theorem test_decode_append : decode 0b0000000000000110_00000000_000_1_0100#32 = .command (.append 6 .hilo) := by
  decide

theorem test_decode_check : decode 0b1111111111111110_00000000_000_0_0101#32 = .command (.check 65534 .lohi) := by
  decide

/-- V4's illegal words: reserved OP, each unused field of each command, RSV. -/
theorem test_decode_illegal :
    ([0x00000000#32, 0x00000006#32, 0x0000000F#32, 0x00000011#32, 0x00000101#32, 0x00010001#32, 0x00000021#32,
      0x00000512#32, 0x00010502#32, 0x00060013#32, 0x00060103#32, 0x00060104#32, 0x00080105#32,
      0x000600E4#32] : List Word).all (fun w => (decode w).isIllegal) = true := by decide

/-- The words of R70, encoded. -/
theorem test_encode_r70 :
    ([.init, .update 0x0A#8, .compute 6, .append 6 .hilo, .check 8 .lohi] : List Instr).map encode =
      [0x00000001#32, 0x00000A02#32, 0x00060003#32, 0x00060014#32, 0x00080005#32] := by decide

/-- No two rows of the opcode table share a word: each pair differs in a bit both fix (R64). -/
theorem test_rows_disjoint :
    List.Pairwise (fun r r' : OpcodeRow => (r.pattern ^^^ r'.pattern) &&& r.mask &&& r'.mask ≠ 0#32)
      opcodeRows := by decide

/-- A word numbered as the opcode table numbers it: `crc.check 8, hilo` (R70). -/
theorem test_decodeTableWord : decodeTableWord 32 0x00080015 = some (.check 8 .hilo) := by decide

theorem test_withFetchWord_runs : (nextState? (step (State.reset.withFetchWord 32 0x00000102))).map (fun t => t.crc) =
    some 0x807E#16 := by decide

/-! The CRC primitives (V1, V2, V3, X1). -/

theorem test_shift1_vectors :
    ([0x0000#16, 0x0001#16, 0x0002#16, 0x8000#16, 0xFFFF#16, 0xA001#16, 0x4B37#16] : List Crc).map crcShift1 =
      [0x0000#16, 0xA001#16, 0x0001#16, 0x4000#16, 0xDFFE#16, 0xF001#16, 0x859A#16] := by decide

theorem test_step_vectors :
    ([(0xFFFF#16, 0x00#8), (0xFFFF#16, 0x01#8), (0xFFFF#16, 0xFF#8), (0xFFFF#16, 0x80#8), (0xFFFF#16, 0xD4#8),
      (0x0000#16, 0x01#8), (0x0000#16, 0x80#8), (0x0000#16, 0xFF#8), (0x1234#16, 0x56#8)] :
        List (Crc × Byte)).map (fun p => crcStep p.1 p.2) =
      [0x40BF#16, 0x807E#16, 0x00FF#16, 0xE0BE#16, 0x1FBF#16, 0xC0C1#16, 0xA001#16, 0x4040#16, 0xE993#16] := by
  decide +kernel

/-- X1's intermediate values, and the published check value of V3 for "123456789". -/
theorem test_crc16_vectors :
    (List.range 7).map (crc16 fun i => frame8.getD i 0) =
      [0xFFFF#16, 0x1FBF#16, 0x391F#16, 0xDAB8#16, 0xD7DB#16, 0x82D6#16, 0x2502#16] ∧
    crc16 (fun i => BitVec.ofNat 8 (0x31 + i)) 9 = 0x4B37#16 := by decide +kernel

/-! Single commands: the rows of V5 named in each comment. -/

/-- V5 variant: CRC = 0x1234, MATCH = 1; `crc.init` gives FFFF, 00000000. -/
theorem test_init : afterCommand 0x00000001 { s8 [] with crc := 0x1234#16, matchBit := true } =
    some (0xFFFF, 0x00000000, frame8) := by decide +kernel

/-- V5 variant: CRC = 0x1234; `crc.update 0x56` gives E993. -/
theorem test_update : afterCommand 0x00005602 { s8 [] with crc := 0x1234#16 } =
    some (0xE993, 0x00000000, frame8) := by decide +kernel

/-- V5 rows 4 and 6: COMPUTE 6; COMPUTE 9 faults READ_BOUNDS. -/
theorem test_compute : afterCommand 0x00060003 { s8 [] with crc := 0x1234#16 } = some (0x2502, 0x00000000, frame8) ∧
    afterCommand 0x00090003 (s8 []) = some (0xFFFF, 0x0000000A, frame8) := by decide +kernel

/-- V5 variant: MATCH = 1; COMPUTE 9 faults and keeps MATCH. -/
theorem test_compute_fault_keeps_match :
    afterCommand 0x00090003 { s8 [] with matchBit := true } = some (0xFFFF, 0x0000000B, frame8) := by decide +kernel

/-- V5 rows 8 and 9: APPEND 6 in both orders. -/
theorem test_append :
    afterCommand 0x00060004 (State.launch [0xD4, 0xE3, 0x39, 0x8C, 0x23, 0xA4, 0x77, 0x88] []) =
      some (0x2502, 0x00000200, [0xD4, 0xE3, 0x39, 0x8C, 0x23, 0xA4, 0x02, 0x25]) ∧
    afterCommand 0x00060014 (State.launch [0xD4, 0xE3, 0x39, 0x8C, 0x23, 0xA4, 0x00, 0x00] []) =
      some (0x2502, 0x00000200, [0xD4, 0xE3, 0x39, 0x8C, 0x23, 0xA4, 0x25, 0x02]) := by decide +kernel

/-- V5 rows 10, 11 and 12: APPEND 7 and 8 fault WRITE_BOUNDS, APPEND 9 READ_BOUNDS. -/
theorem test_append_faults : afterCommand 0x00070004 (s8 []) = some (0xFFFF, 0x0000000E, frame8) ∧
    afterCommand 0x00080004 (s8 []) = some (0xFFFF, 0x0000000E, frame8) ∧
    afterCommand 0x00090004 (s8 []) = some (0xFFFF, 0x0000000A, frame8) := by decide +kernel

/-- V5 rows 13, 14 and 15: CHECK 8 in both orders, CHECK 2. -/
theorem test_check : afterCommand 0x00080005 (s8 []) = some (0x2502, 0x00000001, frame8) ∧
    afterCommand 0x00080015 (s8 []) = some (0x2502, 0x00000000, frame8) ∧
    afterCommand 0x00020005 (s8 []) = some (0xFFFF, 0x00000000, frame8) := by decide +kernel

/-- V5 rows 16, 18 and 25: SHORT_FRAME, READ_BOUNDS, and SHORT_FRAME first on an empty buffer. -/
theorem test_check_faults : afterCommand 0x00010005 (s8 []) = some (0xFFFF, 0x00000012, frame8) ∧
    afterCommand 0x00090005 (s8 []) = some (0xFFFF, 0x0000000A, frame8) ∧
    afterCommand 0x00010005 (State.launch [] []) = some (0xFFFF, 0x00000012, []) := by decide +kernel

/-- V5 rows 19 and 20: illegal words. -/
theorem test_illegal_word : afterCommand 0x00000000 (s8 []) = some (0xFFFF, 0x00000006, frame8) ∧
    afterCommand 0x00080105 (s8 []) = some (0xFFFF, 0x00000006, frame8) := by decide +kernel

/-- V5 variant: FAULT = 1, CAUSE = 3, CRC = 2502; `crc.init` is ignored. -/
theorem test_ignored : afterCommand 0x00000001 (faulted8 []) = some (0x2502, 0x0000000E, frame8) := by decide +kernel

/-- P5: reset clears the fault, CRC = FFFF, STATUS = 0, the buffer unchanged. -/
theorem test_reset_event : (nextState? (step (faulted8 [.reset]))).map State.observe =
    some ⟨0xFFFF, 0x00000000, frame8, []⟩ := by decide +kernel

/-- P5: `read STATUS` returns 0000000E. -/
theorem test_read_status : (nextState? (step (faulted8 [.readStatus]))).map (fun t => t.regReads) =
    some [0x0000000E#32] := by decide +kernel

/-- P2, last command: the observation of the run's last step (R150). -/
theorem test_observation : (nextState? (step { s8 [.command 0x00080015] with crc := 0x2502#16, matchBit := true })).map
    State.observe = some ⟨0x2502, 0x00000000, frame8, []⟩ := by decide +kernel

/-- R30: the refused accesses, each by its own name. -/
theorem test_refused_accesses :
    [step (s8 [.readReg 0 32]), step (s8 [.writeReg 4 32 0#32]), step (s8 [.writeReg 8 32 0#32]),
      step (s8 [.readReg 12 32]), step (s8 [.readReg 4 16]), step (s8 [.writeReg 0 64 1#64]),
      step (s8 [.readReg 6 32])] =
    [.refused .readOfCmd, .refused .writeToCrc, .refused .writeToStatus, .refused (.registerOutside 12),
      .refused (.registerWidth 16), .refused (.registerWidth 64), .refused (.registerMisaligned 6)] := rfl

/-- R40: the host's own access to the buffer. -/
theorem test_host_buffer : (nextState? (step (s8 [.writeBuf 7 0x00#8]))).map State.bufferBytes =
      some [0xD4, 0xE3, 0x39, 0x8C, 0x23, 0xA4, 0x02, 0x00] ∧
    step (s8 [.writeBuf 8 0x00#8]) = .fault (.noSuchOffset 8) := ⟨by decide +kernel, rfl⟩

/-! Assembly (R68, R69, R70). -/

theorem test_assemble_append : assembleText "crc.append 6 ; to the wire".toList = some 0x00060004#32 := by decide

theorem test_assemble_hilo : assembleText "  crc.check 0x8, hilo".toList = some 0x00080015#32 := by decide

theorem test_assemble_update_range : assembleText "crc.update 256".toList = none ∧
    assembleText "crc.update 0x0A".toList = some 0x00000A02#32 := by decide

theorem test_assemble_lower_case : parseLine "CRC.INIT".toList = .error ∧ parseLine "; only".toList = .blank := by
  decide

theorem test_host_lines : hostLine "read STATUS".toList = some [.readReg 8 32] ∧ hostLine "reset ; P5".toList = some [.reset] ∧
    hostLine "buf[6..7] := 02 25".toList = some [.writeBuf 6 0x02#8, .writeBuf 7 0x25#8] ∧
    hostLine "crc.append 6, hilo".toList = some [.writeReg 0 32 0x00060014#32] := by decide

/-! Witnesses: for each statement with hypotheses, what meets all of them together. -/

theorem witness_DecodeOfEncode : (Instr.append 65535 .hilo).wf = true ∧ (Instr.compute 0).wf = true := by decide

theorem witness_DecodedWordIsItsCommandsEncoding : decode 0xFFFF0003#32 = .command (.compute 65535) := by decide

theorem witness_OpcodeTable_selects : (opcodeRows.map fun r => r.selects 0x00060014#32) =
    [false, false, false, true, false] := by decide

theorem witness_OpcodeTable_illegal : opcodeRows.all (fun r => !r.selects 0x00000006#32) = true := by decide

/-- Each premise of R65's cases: RSV ≠ 0, and OP = 0 to 6 and 15 with RSV = 0. -/
theorem witness_DecodeFollowsItsPseudocode : rsvOf 0x00000021#32 ≠ 0 ∧
    ([0x00000000#32, 0x00000001#32, 0xFFFFFF02#32, 0x00000003#32, 0xFFFF0014#32, 0x00080015#32, 0x00000006#32,
      0x0000000F#32] : List Word).map (fun w => (rsvOf w, opOf w)) =
      [(0, 0), (0, 1), (0, 2), (0, 3), (0, 4), (0, 5), (0, 6), (0, 15)] := by decide

theorem witness_StepRunsTheDecodedCommand : (s8 [.writeReg 0 32 0x00060004#32, .reset]).pending =
      [.writeReg 0 32 0x00060004#32, .reset] ∧
    (s8 [.writeReg 0 32 0x00060004#32, .reset]).fault = false ∧
    decode 0x00060004#32 = .command (.append 6 .lohi) := by decide

theorem witness_IllegalWordRaisesIllegalCommand : (s8 [.writeReg 0 32 0x00000000#32]).pending =
      [.writeReg 0 32 0x00000000#32] ∧ IllegalWord 0x00000000#32 ∧
    (s8 [.writeReg 0 32 0x00000000#32]).fault = false ∧ (faulted8 [.writeReg 0 32 0x00000000#32]).fault = true ∧
    ¬ IllegalWord 0x00010003#32 := by
  refine ⟨rfl, .inl rfl, rfl, rfl, ?_⟩
  unfold IllegalWord
  decide

/-- One faulted state for each clause: the last offset of the buffer for the host's accesses. -/
theorem witness_FaultedEngineIgnoresCommands :
    (faulted8 [.writeReg 0 32 1#32]).fault = true ∧ (faulted8 [.readReg 4 32]).pending = [.readReg 4 32] ∧
    (faulted8 [.readReg 8 32]).pending = [.readReg 8 32] ∧
    (faulted8 [.writeBuf 7 9#8]).pending = [.writeBuf 7 9#8] ∧ (faulted8 [.readBuf 7]).pending = [.readBuf 7] ∧
    7 < (faulted8 []).bufSize ∧
    (nextState? (step (faulted8 [.readBuf 7]))).isSome = true ∧
    (faulted8 [.readBuf 7]).pending.head? ≠ some .reset := by decide +kernel

/-- A step that sets FAULT, one that clears it, and one that keeps it. -/
theorem witness_OnlyResetClearsAFault :
    ((s8 [.writeReg 0 32 0#32]).fault = false ∧
      (nextState? (step (s8 [.writeReg 0 32 0#32]))).map (fun t => t.fault) = some true) ∧
    ((faulted8 [.reset]).fault = true ∧
      (nextState? (step (faulted8 [.reset]))).map (fun t => t.fault) = some false) ∧
    ((nextState? (step (faulted8 [.readReg 4 32]))).map (fun t => t.cause) = some 3#3 ∧
      (faulted8 [.readReg 4 32]).pending.head? ≠ some .reset) := by decide +kernel

theorem witness_ResetEventRestoresTheRegisters : (faulted8 [.reset, .readBuf 0]).pending = [.reset, .readBuf 0] ∧
    exec .init (faulted8 []) = .next (faulted8 []) ∧ (faulted8 []).fault = true := ⟨rfl, rfl, rfl⟩

theorem witness_ResetValuesAndLaunchImage : (s8 [.reset]).pending = [.reset] ∧
    (nextState? (step (s8 [.reset]))).isSome = true ∧ 7 < frame8.length := by decide +kernel

theorem witness_EngineWaitsForTheHost : State.reset.pending = [] := rfl

/-- One access for each clause, at the offsets beside the admitted ones. -/
theorem witness_RegisterWindowAdmitsThreeAccesses :
    (s8 [.writeReg 0 32 1#32]).pending = [.writeReg 0 32 1#32] ∧
    (s8 [.writeReg 0 31 1#31]).pending = [.writeReg 0 31 1#31] ∧
    (s8 [.readReg 4 32]).pending = [.readReg 4 32] ∧ (s8 [.readReg 8 32]).pending = [.readReg 8 32] ∧
    (s8 [.readReg 5 32]).pending = [.readReg 5 32] := ⟨rfl, rfl, rfl, rfl, rfl⟩

theorem witness_InitSetsTheSeed : (s8 []).fault = false ∧ opOf 0x00010001#32 = 1 ∧ 0x00010001#32 ≠ 0x00000001#32 := by
  decide

theorem witness_UpdateAbsorbsOneByte : (s8 []).fault = false ∧ opOf 0x00010512#32 = 2 ∧ revOf 0x00010512#32 ≠ 0 := by
  decide

/-- N = BUF_SIZE and N = BUF_SIZE + 1, and an illegal word with OP = 3. -/
theorem witness_ComputeLeavesTheCrcOfNBytes : (s8 []).fault = false ∧ 8 ≤ (s8 []).bufSize ∧ 9 > (s8 []).bufSize ∧
    65535 < 65536 ∧ opOf 0x00060103#32 = 3 ∧ dataOf 0x00060103#32 ≠ 0 := by decide

/-- N = BUF_SIZE - 2, BUF_SIZE - 1, BUF_SIZE and BUF_SIZE + 1, an illegal word with OP = 4, and a CRC of two equal
bytes. -/
theorem witness_AppendWritesTheCrcAfterNBytes : (s8 []).fault = false ∧ 6 + 2 ≤ (s8 []).bufSize ∧
    (7 ≤ (s8 []).bufSize ∧ 7 + 2 > (s8 []).bufSize) ∧ (8 ≤ (s8 []).bufSize ∧ 8 + 2 > (s8 []).bufSize) ∧
    9 > (s8 []).bufSize ∧ opOf 0x000600E4#32 = 4 ∧ rsvOf 0x000600E4#32 ≠ 0 ∧ lo8 0x3F3F#16 = hi8 0x3F3F#16 := by decide

/-- N = 1, 2, BUF_SIZE and BUF_SIZE + 1, and an illegal word with OP = 5. -/
theorem witness_CheckComparesTheTrailingBytes : (s8 []).fault = false ∧ 1 < 2 ∧ (2 ≤ 2 ∧ 2 ≤ (s8 []).bufSize) ∧
    8 ≤ (s8 []).bufSize ∧ 9 > (s8 []).bufSize ∧ opOf 0x00080105#32 = 5 ∧ dataOf 0x00080105#32 ≠ 0 := by decide

/-- Each of the codes and none. -/
theorem witness_FaultConditionsAndPriority : (s8 []).fault = false ∧
    ([.init, .compute 8, .compute 9, .append 6 .lohi, .append 7 .lohi, .append 9 .hilo, .check 1 .lohi,
      .check 9 .hilo] : List Instr).map (causeOf (s8 []).bufSize) = [0, 0, 2, 0, 3, 2, 4, 2] ∧
    IllegalWord 0x00010105#32 ∧ (s8 [.writeReg 0 32 0x00010105#32]).pending = [.writeReg 0 32 0x00010105#32] :=
  ⟨rfl, rfl, .inr (.inr (.inr (.inr (.inl ⟨by decide, by decide⟩)))), rfl⟩

theorem witness_FaultEntryWritesOnlyFaultAndCause :
    (s8 [.writeReg 0 32 0x00070004#32]).pending = [.writeReg 0 32 0x00070004#32] ∧
    (s8 [.writeReg 0 32 0x00070004#32]).fault = false ∧
    (nextState? (step (s8 [.writeReg 0 32 0x00070004#32]))).map (fun t => t.fault) = some true := by decide +kernel

/-- A stream of two bytes; COMPUTE 3 followed by the UPDATEs of the bytes at offsets 3 to 5 (R87's example). -/
theorem witness_StreamingLaw :
    ((s8 [hostWrites (.update 1#8), hostWrites (.update 2#8), .reset]).fault = false ∧
      (s8 [hostWrites (.update 1#8), hostWrites (.update 2#8), .reset]).crc = 0xFFFF#16 ∧
      (s8 [hostWrites (.update 1#8), hostWrites (.update 2#8), .reset]).pending =
        ([1#8, 2#8] : List Byte).map (fun b => hostWrites (.update b)) ++ [.reset]) ∧
    (3 < 65536 ∧ 3 ≤ 6 ∧ 6 ≤ (s8 []).bufSize ∧
      (s8 [hostWrites (.compute 3), hostWrites (.update 0x8C#8), hostWrites (.update 0x23#8),
        hostWrites (.update 0xA4#8)]).pending =
        hostWrites (.compute 3) ::
          (List.range' 3 (6 - 3)).map (fun i => hostWrites (.update ((s8 []).readByte i))) ++ []) := by
  decide +kernel

/-- The premises of R103's three items and of R49's: an invariant state, no fault, N + 2 = BUF_SIZE, two orders. -/
theorem witness_AppendLaws : (s8 []).memInv ∧ (s8 []).fault = false ∧ 6 + 2 ≤ (s8 []).bufSize ∧
    ByteOrder.lohi ≠ ByteOrder.hilo := by decide +kernel

/-- A step that changes COUNT, and one that keeps it because it faults. -/
theorem witness_CountIsTheBytesWritten :
    (nextState? (step (s8 [.writeReg 0 32 0x00060004#32]))).map (fun t => t.count) = some 2#4 ∧
    (nextState? (step (s8 [.writeReg 0 32 0x00070004#32]))).map (fun t => (t.fault, t.count)) = some (true, 0#4) := by
  decide +kernel

theorem witness_MatchIsTheCheckResult : isCheck (.compute 3) = false ∧
    (nextState? (exec (.check 8 .lohi) (s8 []))).map (fun t => (t.fault, t.matchBit)) = some (false, true) ∧
    (nextState? (exec (.check 1 .lohi) (s8 []))).map (fun t => (t.fault, t.matchBit)) = some (true, false) := by
  decide +kernel

/-- Two states that agree below offset 6 only: another byte there, another CRC, MATCH and COUNT. -/
theorem witness_ResultsDependOnTheFrameBytesOnly :
    seedsItself (.append 6 .lohi) = true ∧ (s8 []).fault = false ∧
    ({ s8 [] with crc := 1#16, matchBit := true, count := 2#4, mem := (s8 []).mem.write 6 0x77#8 } : State).fault =
      false ∧
    (List.range (readsBelow (.append 6 .lohi))).map (s8 []).readByte =
      (List.range 6).map ({ s8 [] with mem := (s8 []).mem.write 6 0x77#8 } : State).readByte := by decide +kernel

/-- A command accepted and one that faults. -/
theorem witness_AcceptedCommandOverwritesResults : (s8 []).fault = false ∧
    (nextState? (exec (.compute 8) (s8 []))).map (fun t => t.fault) = some false ∧
    (nextState? (exec (.compute 9) (s8 []))).map (fun t => t.fault) = some true := by decide +kernel

theorem witness_FrameOfTheNonStoringCommands : isAppend (.check 8 .lohi) = false ∧
    (nextState? (exec (.check 8 .lohi) (s8 []))).isSome = true := by decide +kernel

/-- APPEND accepted, and faulted. -/
theorem witness_FrameOfAppend : (s8 []).memInv ∧
    (nextState? (exec (.append 6 .hilo) (s8 []))).map (fun t => t.fault) = some false ∧
    (nextState? (exec (.append 7 .hilo) (s8 []))).map (fun t => t.fault) = some true := by decide +kernel

/-- The last offset of the buffer and the first beyond it. -/
theorem witness_HostBufferAccesses : (s8 [.writeBuf 7 1#8]).memInv ∧
    (s8 [.writeBuf 7 1#8]).pending = [.writeBuf 7 1#8] ∧ 7 < (s8 []).bufSize ∧
    (s8 [.readBuf 7]).pending = [.readBuf 7] ∧ (s8 [.readBuf 8]).pending = [.readBuf 8] ∧ (s8 []).bufSize ≤ 8 := by
  decide +kernel

/-- A state that no reset gives, and its step. -/
theorem witness_EveryStepKeepsTheInvariant : (faulted8 [.reset]).inv ∧
    (nextState? (step (faulted8 [.reset]))).isSome = true := by decide +kernel

/-- A launch, and the state after its first step, an accepted APPEND. -/
theorem witness_StatusInEveryReachableState : ∃ t, Reached t (some (.append 6 .lohi)) ∧ t.count = 2#4 :=
  ⟨_, .step _ _ _ (.launch frame8 [.writeReg 0 32 0x00060004#32]) rfl, rfl⟩

/-- A command write and another action. -/
theorem witness_StepTakesUpOneHostAction :
    (nextState? (step (s8 [.writeReg 0 32 0x00000001#32]))).map (fun t => t.pc) = some 1 ∧
    (nextState? (step (s8 [.readBuf 0]))).map (fun t => t.pc) = some 0 ∧
    (nextState? (exec .init (s8 []))).isSome = true := by decide +kernel

/-- Commands that keep their duties at the boundary of the buffer. -/
theorem witness_DutifulHostNeverFaults : (s8 []).fault = false ∧
    ([.compute 8, .append 6 .lohi, .check 8 .lohi, .check 2 .hilo, .init] : List Instr).all
      (fun i => i.wf && lengthDuty (s8 []).bufSize i) = true ∧
    (s8 [hostWrites (.compute 8), hostWrites .init, .reset]).pending =
      ([.compute 8, .init] : List Instr).map hostWrites ++ [.reset] := by decide

theorem witness_CommandEffectsAreSeenInOrder : (Instr.check 8 .lohi).wf = true ∧ (s8 []).fault = false ∧
    (s8 [hostWrites (.check 8 .lohi), .readReg 4 32, .readReg 8 32]).pending =
      [hostWrites (.check 8 .lohi), .readReg 4 32, .readReg 8 32] ∧
    7 < (s8 []).bufSize ∧
    (s8 [.writeBuf 7 1#8, hostWrites (.check 8 .lohi)]).pending = [.writeBuf 7 1#8, hostWrites (.check 8 .lohi)] := by
  decide

end Sys2Proof.Tests
end

/-! PROOF. The rules the proofs of 10_state.md cite: what a step does with each action of the host, what a command
answers, and what each keeps. -/

namespace Sys2Proof.Machine

open Sys2Proof.Claims

/-- The engine's registers hold the same values in both states (R20). -/
structure State.SameRegisters (s t : State) : Prop where
  crc : t.crc = s.crc
  matchBit : t.matchBit = s.matchBit
  fault : t.fault = s.fault
  cause : t.cause = s.cause
  count : t.count = s.count

/-- What no command changes: `BUF_SIZE` and everything of the host (R8, R24). -/
structure State.SameHost (s t : State) : Prop where
  bufSize : t.bufSize = s.bufSize
  pending : t.pending = s.pending
  pc : t.pc = s.pc
  regReads : t.regReads = s.regReads
  bufReads : t.bufReads = s.bufReads

/-! ### Fault codes -/

theorem FaultCause.code_bounds (why : FaultCause) : 1 ≤ why.code.toNat ∧ why.code.toNat ≤ 4 := by
  cases why <;> decide

theorem FaultCause.code_ne_zero (why : FaultCause) : why.code ≠ 0#3 := by
  cases why <;> decide

/-! ### One step, by the host's next action -/

theorem step_of_pending {s : State} {a : HostAction} {rest : List HostAction} (hp : s.pending = a :: rest) :
    step s = hostAction a (s.takeUp rest) := by
  simp only [step, hostStep, hp]

/-- A 32-bit write to offset 0x00 is a command write (R31). -/
theorem step_commandWrite {s : State} {w : Word} {rest : List HostAction}
    (hp : s.pending = .writeReg 0 32 w :: rest) :
    step s = commandWrite w (s.takeUp rest).advancePc := by
  rw [step_of_pending hp]
  simp [hostAction, registerWrite, offCmd]

theorem step_reset {s : State} {rest : List HostAction} (hp : s.pending = .reset :: rest) :
    step s = .next (s.takeUp rest).resetEngine :=
  step_of_pending hp

/-! ### The register window (R30) -/

theorem registerWrite_refused {off width : Nat} (h : ¬ (off = 0 ∧ width = 32)) (data : BitVec width) (s : State) :
    ∃ r, registerWrite off width data s = .refused r := by
  unfold registerWrite
  split
  · exact ⟨_, rfl⟩
  · have hoff : off ≠ offCmd := fun ho => h ⟨ho, by omega⟩
    rw [if_neg hoff]
    split
    · exact ⟨_, rfl⟩
    · split
      · exact ⟨_, rfl⟩
      · split <;> exact ⟨_, rfl⟩

theorem registerRead_crc (s : State) : registerRead 4 32 s = .next (s.logRegRead (crcWord s)) := rfl

theorem registerRead_status (s : State) : registerRead 8 32 s = .next (s.logRegRead (statusWord s)) := rfl

theorem registerRead_refused {off width : Nat} (h : ¬ ((off = 4 ∨ off = 8) ∧ width = 32)) (s : State) :
    ∃ r, registerRead off width s = .refused r := by
  unfold registerRead
  split
  · exact ⟨_, rfl⟩
  · have hcrc : off ≠ offCrc := fun ho => h ⟨.inl ho, by omega⟩
    have hstatus : off ≠ offStatus := fun ho => h ⟨.inr ho, by omega⟩
    rw [if_neg hcrc, if_neg hstatus]
    split
    · exact ⟨_, rfl⟩
    · split <;> exact ⟨_, rfl⟩

/-! ### A command write -/

theorem ifAccepting_of_fault {s : State} (hf : s.fault = true) (run : Host.Outcome State Fault Refusal) :
    ifAccepting s run = .next s :=
  if_pos hf

theorem ifAccepting_of_unfaulted {s : State} (hf : s.fault = false) (run : Host.Outcome State Fault Refusal) :
    ifAccepting s run = run :=
  if_neg (by simp [hf])

theorem exec_of_fault {s : State} (hf : s.fault = true) (i : Instr) : exec i s = .next s := by
  cases i <;> exact ifAccepting_of_fault hf _

theorem commandWrite_of_fault {s : State} (hf : s.fault = true) (w : Word) : commandWrite w s = .next s :=
  if_pos hf

/-- A word that decodes to a command runs it; while FAULT = 1 both are ignored (R124). -/
theorem commandWrite_of_command {w : Word} {i : Instr} (hd : decode w = .command i) (s : State) :
    commandWrite w s = exec i s := by
  cases hf : s.fault with
  | true => rw [commandWrite_of_fault hf, exec_of_fault hf]
  | false => simp [commandWrite, hf, hd]

theorem commandWrite_of_illegal {w : Word} {why : Illegal} {s : State} (hd : decode w = .illegal why)
    (hf : s.fault = false) : commandWrite w s = .next (s.raiseFault .illegalCommand) := by
  simp [commandWrite, hf, hd]

theorem fault_of_illegal {w : Word} {why : Illegal} {s t : State} (hd : decode w = .illegal why)
    (h : commandWrite w s = .next t) : t.fault = true := by
  cases hf : s.fault with
  | true =>
    rw [commandWrite_of_fault hf] at h
    cases h
    exact hf
  | false =>
    rw [commandWrite_of_illegal hd hf] at h
    cases h
    rfl

theorem commandWrite_result {w : Word} {s t : State} (h : commandWrite w s = .next t) : ExecResult s t := by
  obtain ⟨t', ht, hr⟩ := commandWrite_cases w s
  rw [h] at ht
  cases ht
  exact hr

theorem exec_result {i : Instr} {s t : State} (h : exec i s = .next t) : ExecResult s t := by
  obtain ⟨t', ht, hr⟩ := exec_cases i s
  rw [h] at ht
  cases ht
  exact hr

/-! ### What a command can do, whichever it is -/

theorem ExecResult.eq_of_fault {s t : State} (h : ExecResult s t) (hf : s.fault = true) : t = s := by
  cases h with
  | ignored => rfl
  | faulted hn | completed hn | appended hn => simp [hf] at hn

theorem ExecResult.sameHost {s t : State} (h : ExecResult s t) : s.SameHost t := by
  cases h <;> exact ⟨rfl, rfl, rfl, rfl, rfl⟩

/-- FAULT is set together with a nonzero CAUSE. -/
theorem ExecResult.cause_ne_zero {s t : State} (h : ExecResult s t) (hs : s.fault = false) (ht : t.fault = true) :
    t.cause ≠ 0#3 := by
  cases h with
  | faulted _ why => exact why.code_ne_zero
  | ignored hf => simp [hs] at hf
  | completed | appended => simp [hs] at ht

/-- With FAULT = 1 afterwards the command has left CRC, MATCH and COUNT (R122, R124). -/
theorem ExecResult.results_of_fault {s t : State} (h : ExecResult s t) (ht : t.fault = true) :
    t.crc = s.crc ∧ t.matchBit = s.matchBit ∧ t.count = s.count := by
  cases h with
  | ignored | faulted => exact ⟨rfl, rfl, rfl⟩
  | completed hf | appended hf => simp [hf] at ht

theorem ExecResult.count_cases {s t : State} (h : ExecResult s t) :
    t.count = s.count ∨ t.count = 0#4 ∨ t.count = 2#4 := by
  cases h with
  | ignored | faulted => exact .inl rfl
  | completed => exact .inr (.inl rfl)
  | appended => exact .inr (.inr rfl)

/-! ### What a step does to the engine -/

/-- What a step does to the engine's registers: what a command write does, what a reset does, or nothing. -/
inductive StepEffect (s : State) : State → Prop where
  | command (w : Word) (rest : List HostAction) (t : State) (hp : s.pending = .writeReg 0 32 w :: rest)
      (h : commandWrite w (s.takeUp rest).advancePc = .next t) : StepEffect s t
  | reset (rest : List HostAction) (hp : s.pending = .reset :: rest) : StepEffect s (s.takeUp rest).resetEngine
  | quiet (t : State) (hw : ∀ off width data rest, s.pending ≠ .writeReg off width data :: rest)
      (hr : ∀ rest, s.pending ≠ .reset :: rest) (h : s.SameRegisters t) : StepEffect s t

theorem step_effect {s t : State} (h : step s = .next t) : StepEffect s t := by
  obtain ⟨hp, rfl⟩ | ⟨a, rest, hp, ha⟩ := step_cases h
  · exact .quiet _ (by simp [hp]) (by simp [hp]) ⟨rfl, rfl, rfl, rfl, rfl⟩
  · cases ha with
    | command w => exact .command w rest t hp (step_commandWrite hp ▸ h)
    | reset => exact .reset rest hp
    | regRead | bufWrite | bufRead => exact .quiet _ (by simp [hp]) (by simp [hp]) ⟨rfl, rfl, rfl, rfl, rfl⟩

/-- A step after which FAULT = 1 leaves CRC, MATCH and COUNT. -/
theorem step_results_of_fault {s t : State} (h : step s = .next t) (ht : t.fault = true) :
    t.crc = s.crc ∧ t.matchBit = s.matchBit ∧ t.count = s.count := by
  cases step_effect h with
  | command _ _ _ _ hc => exact (commandWrite_result hc).results_of_fault ht
  | reset => simp at ht
  | quiet _ _ _ hq => exact ⟨hq.crc, hq.matchBit, hq.count⟩

/-! ### What each command does -/

/-- The fault a command raises on a buffer of `size` bytes: the conditions of R120 in the order of R123. -/
def faultOf (size : Nat) : Instr → Option FaultCause
  | .init | .update _ => none
  | .compute n => if n > size then some .readBounds else none
  | .append n _ => if n > size then some .readBounds else if n + 2 > size then some .writeBounds else none
  | .check n _ => if n < 2 then some .shortFrame else if n > size then some .readBounds else none

/-- The state after a command that is accepted (R85, R86, R88, R100, R110). -/
def State.accept (s : State) : Instr → State
  | .init => s.complete crcSeed false 0#4
  | .update d => s.complete (crcStep s.crc d) false 0#4
  | .compute n => s.complete (s.crcOf n) false 0#4
  | .append n o =>
    ((s.writeByte n (crcBytes (s.crcOf n) o).1).writeByte (n + 1) (crcBytes (s.crcOf n) o).2).complete
      (s.crcOf n) false 2#4
  | .check n o => s.complete (s.crcOf (n - 2)) (s.trailingBytesAre n (crcBytes (s.crcOf (n - 2)) o)) 0#4

/-- A command written while FAULT = 0 raises the fault of its operands, or is accepted. -/
theorem exec_of_unfaulted {s : State} (hf : s.fault = false) (i : Instr) :
    exec i s = .next ((faultOf s.bufSize i).elim (s.accept i) s.raiseFault) := by
  cases i with
  | init => exact ifAccepting_of_unfaulted hf _
  | update d => exact ifAccepting_of_unfaulted hf _
  | compute n =>
    refine (ifAccepting_of_unfaulted hf _).trans ?_
    simp only [faultOf]
    split <;> rfl
  | append n o =>
    refine (ifAccepting_of_unfaulted hf _).trans ?_
    simp only [faultOf]
    split
    · rfl
    · split <;> rfl
  | check n o =>
    refine (ifAccepting_of_unfaulted hf _).trans ?_
    simp only [faultOf]
    split
    · rfl
    · split <;> rfl

/-- The three outcomes of a command: ignored, faulted, accepted (R122, R124). -/
inductive CommandOutcome (i : Instr) (s : State) : State → Prop where
  | ignored (hf : s.fault = true) : CommandOutcome i s s
  | raised (hf : s.fault = false) (why : FaultCause) (hw : faultOf s.bufSize i = some why) :
      CommandOutcome i s (s.raiseFault why)
  | accepted (hf : s.fault = false) (hw : faultOf s.bufSize i = none) : CommandOutcome i s (s.accept i)

theorem exec_outcome (i : Instr) (s : State) : ∃ t, exec i s = .next t ∧ CommandOutcome i s t := by
  cases hf : s.fault with
  | true => exact ⟨s, exec_of_fault hf i, .ignored hf⟩
  | false =>
    refine ⟨_, exec_of_unfaulted hf i, ?_⟩
    cases hw : faultOf s.bufSize i with
    | none => exact .accepted hf hw
    | some why => exact .raised hf why hw

theorem exec_outcome_of_next {i : Instr} {s t : State} (h : exec i s = .next t) : CommandOutcome i s t := by
  obtain ⟨t', ht, ho⟩ := exec_outcome i s
  rw [h] at ht
  cases ht
  exact ho

section

variable (s : State) (i : Instr)

@[simp] theorem State.accept_fault : (s.accept i).fault = s.fault := by cases i <;> rfl
@[simp] theorem State.accept_cause : (s.accept i).cause = s.cause := by cases i <;> rfl
@[simp] theorem State.accept_count : (s.accept i).count = if isAppend i then 2#4 else 0#4 := by cases i <;> rfl

theorem State.accept_matchBit (h : isCheck i = false) : (s.accept i).matchBit = false := by
  cases i with
  | check => simp [isCheck] at h
  | init | update | compute | append => rfl

theorem State.accept_mem (h : isAppend i = false) : (s.accept i).mem = s.mem := by
  cases i with
  | append => simp [isAppend] at h
  | init | update | compute | check => rfl

/-- No command reads MATCH. -/
theorem State.accept_with_matchBit (m : Bool) : State.accept { s with matchBit := m } i = s.accept i := by
  cases i <;> rfl

/-- CHECK's MATCH compares the trailing two bytes with the CRC it leaves, in the selected order (R110). -/
theorem State.accept_check_matchBit (n : Nat) (o : ByteOrder) :
    (s.accept (.check n o)).matchBit = true ↔
      (s.readByte (n - 2), s.readByte (n - 1)) = crcBytes (s.accept (.check n o)).crc o := by
  simp [State.accept, State.trailingBytesAre, Prod.ext_iff]

end

/-- With another MATCH a command does the same, and keeps that MATCH when it is ignored or faults. -/
theorem exec_with_matchBit (i : Instr) (s : State) (m : Bool) :
    ∃ t, exec i s = .next t ∧
      exec i { s with matchBit := m } = .next { t with matchBit := if t.fault then m else t.matchBit } := by
  obtain ⟨t, ht, ho⟩ := exec_outcome i s
  refine ⟨t, ht, ?_⟩
  cases ho with
  | ignored hf =>
    rw [if_pos hf]
    exact exec_of_fault (s := { s with matchBit := m }) hf i
  | raised hf why hw =>
    rw [exec_of_unfaulted (s := { s with matchBit := m }) hf i, hw]
    rfl
  | accepted hf hw =>
    rw [exec_of_unfaulted (s := { s with matchBit := m }) hf i, hw, if_neg (by simp [hf]), Option.elim_none,
      State.accept_with_matchBit]

theorem eq_check_of_isCheck {i : Instr} (h : isCheck i = true) : ∃ n o, i = .check n o := by
  cases i with
  | check n o => exact ⟨n, o, rfl⟩
  | init | update | compute | append => simp [isCheck] at h

theorem eq_append_of_isAppend {i : Instr} (h : isAppend i = true) : ∃ n o, i = .append n o := by
  cases i with
  | append n o => exact ⟨n, o, rfl⟩
  | init | update | compute | check => simp [isAppend] at h

/-! ### The words the host reads -/

/-- Fields put together, on numbers. -/
theorem toNat_append_eq_add {m n : Nat} (x : BitVec m) (y : BitVec n) :
    (x ++ y).toNat = x.toNat * 2 ^ n + y.toNat := by
  rw [BitVec.toNat_append, ← Nat.shiftLeft_add_eq_or_of_lt y.isLt, Nat.shiftLeft_eq]

theorem crcWord_toNat (s : State) : (crcWord s).toNat = s.crc.toNat :=
  BitVec.toNat_setWidth_of_le (by decide)

/-- STATUS field by field (R23). -/
theorem statusWord_toNat (s : State) :
    (statusWord s).toNat =
      (if s.matchBit then 1 else 0) + (if s.fault then 2 else 0) + s.cause.toNat * 4 + s.count.toNat * 256 := by
  simp only [statusWord, toNat_append_eq_add, BitVec.toNat_ofBool, BitVec.toNat_ofNat]
  cases s.matchBit <;> cases s.fault <;> simp <;> omega

theorem statusWord_bit_zero (s : State) : (statusWord s).getLsbD 0 = s.matchBit := by
  simp only [statusWord, BitVec.getLsbD_append]
  simp

theorem statusWord_resetEngine (s : State) : statusWord s.resetEngine = 0x00000000#32 :=
  BitVec.eq_of_toNat_eq (by simp [statusWord_toNat])

theorem crcWord_resetEngine (s : State) : crcWord s.resetEngine = 0x0000FFFF#32 := rfl

/-! ### The launch image -/

theorem Memory.read_place_below (bs : List Byte) (m : Memory) (off a : Nat) (h : a < off) :
    (m.place off bs).read a = m.read a := by
  induction bs generalizing m off with
  | nil => rfl
  | cons b bs ih => rw [Memory.place, ih _ _ (by omega), Memory.read_write_other m off a b (by omega)]

theorem Memory.read_place (bs : List Byte) (m : Memory) (off k : Nat) (hm : m.wf = true) (hk : k < bs.length) :
    (m.place off bs).read (off + k) = bs[k] := by
  induction bs generalizing m off k with
  | nil => simp at hk
  | cons b bs ih =>
    rw [Memory.place]
    cases k with
    | zero => exact (Memory.read_place_below bs _ _ _ (by omega)).trans (Memory.read_write_same m off b hm)
    | succ k =>
      have hoff : off + (k + 1) = off + 1 + k := by omega
      rw [hoff, ih _ _ k (Memory.wf_write m off b hm) (by simpa using hk), List.getElem_cons_succ]

theorem State.launch_readByte (image : List Byte) (actions : List HostAction) {a : Nat} (h : a < image.length) :
    (State.launch image actions).readByte a = image[a] := by
  have hread : (Memory.place [] 0 image).read (0 + a) = image[a] := Memory.read_place image [] 0 a rfl h
  rwa [Nat.zero_add] at hread

/-! ### The machine's invariant -/

theorem State.memInv_writeByte {s : State} (h : s.memInv) {off : Nat} (ho : off < s.bufSize) (v : Byte) :
    (s.writeByte off v).memInv :=
  ⟨Memory.wf_write s.mem off v h.1, Memory.below_write s.bufSize s.mem off v ho h.2⟩

theorem State.statusInv_raiseFault {s : State} (h : s.statusInv) (why : FaultCause) :
    (s.raiseFault why).statusInv := by
  obtain ⟨-, -, hcount, hmatch⟩ := h
  exact ⟨by simp, fun _ => why.code_bounds, hcount, hmatch⟩

theorem State.statusInv_complete {s : State} (h : s.statusInv) (c : Crc) {m : Bool} {n : BitVec 4}
    (hn : n = 0#4 ∨ n = 2#4) (hm : m = true → n = 0#4) : (s.complete c m n).statusInv := by
  obtain ⟨hclear, hset, -, -⟩ := h
  exact ⟨hclear, hset, hn, hm⟩

theorem State.statusInv_resetEngine (s : State) : s.resetEngine.statusInv := by
  simp [State.statusInv]

/-- A command keeps the invariant. -/
theorem ExecResult.inv {s t : State} (h : ExecResult s t) (hi : s.inv) : t.inv := by
  obtain ⟨hstatus, hmem⟩ := hi
  cases h with
  | ignored => exact ⟨hstatus, hmem⟩
  | faulted _ why => exact ⟨State.statusInv_raiseFault hstatus why, hmem⟩
  | completed _ c m => exact ⟨State.statusInv_complete hstatus c (.inl rfl) fun _ => rfl, hmem⟩
  | appended _ n hn c b b' =>
    have hlow : (s.writeByte n b).memInv := State.memInv_writeByte hmem (by omega) b
    have hhigh : ((s.writeByte n b).writeByte (n + 1) b').memInv :=
      State.memInv_writeByte hlow (by rw [State.writeByte_bufSize]; omega) b'
    exact ⟨State.statusInv_complete hstatus c (.inr rfl) (by simp), hhigh⟩

/-- An action of the host keeps the invariant. -/
theorem ActionResult.inv {s t : State} {a : HostAction} (h : ActionResult s a t) (hi : s.inv) : t.inv := by
  cases h with
  | command _ _ hc => exact hc.inv hi
  | regRead | bufRead => exact hi
  | bufWrite _ v ho => exact ⟨hi.1, State.memInv_writeByte hi.2 ho v⟩
  | reset => exact ⟨s.statusInv_resetEngine, hi.2⟩

theorem step_inv {s t : State} (hi : s.inv) (h : step s = .next t) : t.inv := by
  obtain ⟨-, rfl⟩ | ⟨a, rest, -, ha⟩ := step_cases h
  · exact hi
  · exact ha.inv hi

theorem State.reset_inv : State.reset.inv :=
  ⟨State.statusInv_resetEngine State.reset, State.reset_mem_wf, rfl⟩

theorem State.launch_inv (image : List Byte) (actions : List HostAction) : (State.launch image actions).inv :=
  ⟨State.statusInv_resetEngine State.reset, Memory.wf_place image [] 0 rfl,
    Memory.below_place image.length image [] 0 (by omega) rfl⟩

/-- Every state of every run meets the invariant. -/
theorem reached_inv {s : State} {last : Option Instr} (h : Reached s last) : s.inv := by
  induction h with
  | launch image actions => exact State.launch_inv image actions
  | step _ _ _ _ hs ih => exact step_inv ih hs

/-! ### The last accepted command -/

theorem lastAccepted_command {s : State} {off : Nat} {w : Word} {rest : List HostAction} {i : Instr}
    (hp : s.pending = .writeReg off 32 w :: rest) (hd : decode w = .command i) (t : State) (last : Option Instr) :
    lastAccepted s t last = if s.fault = false ∧ t.fault = false then some i else last := by
  simp [lastAccepted, hp, hd]

theorem lastAccepted_illegal {s : State} {off : Nat} {w : Word} {rest : List HostAction} {why : Illegal}
    (hp : s.pending = .writeReg off 32 w :: rest) (hd : decode w = .illegal why) (t : State) (last : Option Instr) :
    lastAccepted s t last = last := by
  simp [lastAccepted, hp, hd]

theorem lastAccepted_reset {s : State} {rest : List HostAction} (hp : s.pending = .reset :: rest) (t : State)
    (last : Option Instr) : lastAccepted s t last = none := by
  simp [lastAccepted, hp]

theorem lastAccepted_quiet {s : State} (hw : ∀ off width data rest, s.pending ≠ .writeReg off width data :: rest)
    (hr : ∀ rest, s.pending ≠ .reset :: rest) (t : State) (last : Option Instr) :
    lastAccepted s t last = last := by
  unfold lastAccepted
  split
  · exact absurd ‹_› (hw _ _ _ _)
  · exact absurd ‹_› (hr _)
  · rfl

/-- MATCH = 1 and COUNT = 2 tell which command was the last accepted one (R25, R28, R36). -/
structure State.TellsLast (s : State) (last : Option Instr) : Prop where
  matchBit : s.matchBit = true → ∃ n o, last = some (.check n o)
  count : s.count = 2#4 → ∃ n o, last = some (.append n o)

theorem State.TellsLast.of_results_eq {s t : State} {last : Option Instr} (h : s.TellsLast last)
    (hm : t.matchBit = s.matchBit) (hc : t.count = s.count) : t.TellsLast last :=
  ⟨fun ht => h.matchBit (hm ▸ ht), fun ht => h.count (hc ▸ ht)⟩

theorem State.tellsLast_of_results_zero {s : State} (hm : s.matchBit = false) (hc : s.count = 0#4)
    (last : Option Instr) : s.TellsLast last :=
  ⟨by simp [hm], by simp [hc]⟩

/-- An accepted command is told by the MATCH and COUNT it leaves. -/
theorem State.accept_tellsLast (s : State) (i : Instr) : (s.accept i).TellsLast (some i) where
  matchBit hm := by
    cases hi : isCheck i with
    | true => simpa using eq_check_of_isCheck hi
    | false => simp [State.accept_matchBit s i hi] at hm
  count hc := by
    cases hi : isAppend i with
    | true => simpa using eq_append_of_isAppend hi
    | false => simp [hi] at hc

theorem step_tellsLast {s t : State} {last : Option Instr} (h : s.TellsLast last) (hs : step s = .next t) :
    t.TellsLast (lastAccepted s t last) := by
  cases step_effect hs with
  | command w rest _ hp hc =>
    cases hd : decode w with
    | illegal why =>
      rw [lastAccepted_illegal hp hd]
      obtain ⟨-, hmatch, hcount⟩ := step_results_of_fault hs (fault_of_illegal hd hc)
      exact h.of_results_eq hmatch hcount
    | command i =>
      rw [lastAccepted_command hp hd]
      rw [commandWrite_of_command hd] at hc
      cases exec_outcome_of_next hc with
      | ignored hf =>
        rw [if_neg fun hn => Bool.false_ne_true (hn.1.symm.trans hf)]
        exact h.of_results_eq rfl rfl
      | raised =>
        rw [if_neg (by simp)]
        exact h.of_results_eq rfl rfl
      | accepted hf =>
        rw [if_pos (by simpa using hf)]
        exact State.accept_tellsLast _ i
  | reset rest hp => exact State.tellsLast_of_results_zero rfl rfl _
  | quiet _ hw hr hq =>
    rw [lastAccepted_quiet hw hr]
    exact h.of_results_eq hq.matchBit hq.count

theorem reached_tellsLast {s : State} {last : Option Instr} (h : Reached s last) : s.TellsLast last := by
  induction h with
  | launch => exact State.tellsLast_of_results_zero rfl rfl _
  | step _ _ _ _ hs ih => exact step_tellsLast ih hs

end Sys2Proof.Machine

/-! PROOF. The statements of 10_state.md. -/

namespace Sys2Proof.Proofs

open Sys2Proof.Machine Sys2Proof.Claims

/-- Settles O41: each thing an action of the host can do keeps both halves of the invariant. -/
theorem everyStepKeepsTheInvariant : Obligations.EveryStepKeepsTheInvariant :=
  fun _ _ => step_inv

/-- Settles O10, by what a step can do to the registers: a command write, a reset, or nothing. -/
theorem onlyResetClearsAFault : Obligations.OnlyResetClearsAFault := by
  refine ⟨fun s t h hs ht => ?_, fun s t h hs ht => ?_, fun s t h hs hnr => ?_, fun s rest hp => ?_, rfl,
    fun s w rest hp => ⟨?_, fun hf => ?_⟩⟩
  · cases step_effect h with
    | command w rest _ hp hc => exact ⟨w, rest, hp, (commandWrite_result hc).cause_ne_zero hs ht⟩
    | reset => simp at ht
    | quiet _ _ _ hq => simp [hq.fault, hs] at ht
  · cases step_effect h with
    | command w rest _ hp hc =>
      obtain rfl := (commandWrite_result hc).eq_of_fault hs
      simp [hs] at ht
    | reset rest hp => exact ⟨rest, hp⟩
    | quiet _ _ _ hq => simp [hq.fault, hs] at ht
  · cases step_effect h with
    | command w rest _ hp hc =>
      obtain rfl := (commandWrite_result hc).eq_of_fault hs
      rfl
    | reset rest hp => simp [hp] at hnr
    | quiet _ _ _ hq => exact hq.cause
  · exact ⟨_, step_reset hp, rfl, rfl⟩
  · obtain ⟨t, ht, hr⟩ := commandWrite_cases w (s.takeUp rest).advancePc
    exact ⟨t, (step_commandWrite hp).trans ht, hr.sameHost.pending⟩
  · exact (step_commandWrite hp).trans (commandWrite_of_fault (s := (s.takeUp rest).advancePc) hf w)

/-- Settles O12: the reset event writes the reset values over any state; the launch image is read back by the
laws of memory. -/
theorem resetValuesAndLaunchImage : Obligations.ResetValuesAndLaunchImage := by
  refine ⟨rfl, rfl, rfl, rfl, rfl, statusWord_resetEngine State.reset, crcWord_resetEngine State.reset,
    fun s t rest hp h => ?_, fun image actions a ha => State.launch_readByte image actions ha⟩
  rw [step_reset hp] at h
  cases h
  exact ⟨statusWord_resetEngine _, crcWord_resetEngine _, fun _ => rfl⟩

/-- Settles O15, access by access. -/
theorem registerWindowAdmitsThreeAccesses : Obligations.RegisterWindowAdmitsThreeAccesses := by
  refine fun s rest => ⟨fun off width data hp => ⟨?_, fun h => ?_⟩, fun off width hp => ⟨?_, ?_, fun h => ?_⟩⟩
  · rintro ⟨rfl, rfl⟩
    obtain ⟨t, ht, -⟩ := commandWrite_cases data (s.takeUp rest).advancePc
    exact ⟨t, (step_commandWrite hp).trans ht⟩
  · rw [step_of_pending hp]
    exact registerWrite_refused h data _
  · rintro ⟨rfl, rfl⟩
    exact (step_of_pending hp).trans (registerRead_crc _)
  · rintro ⟨rfl, rfl⟩
    exact (step_of_pending hp).trans (registerRead_status _)
  · rw [step_of_pending hp]
    exact registerRead_refused h _

/-- Settles O16, from the two words as numbers and the widths of their fields. -/
theorem statusAndCrcWordsAsRead : Obligations.StatusAndCrcWordsAsRead := by
  intro s
  have hstatus := statusWord_toNat s
  have hcrc := crcWord_toNat s
  have hcause : s.cause.toNat < 8 := s.cause.isLt
  have hcount : s.count.toNat < 16 := s.count.isLt
  have hvalue : s.crc.toNat < 65536 := s.crc.isLt
  have hmatch : (if s.matchBit then 1 else 0) ≤ 1 := by split <;> omega
  have hfault : (if s.fault then 2 else 0) ≤ 2 := by split <;> omega
  exact ⟨hstatus, by omega, by omega, hcrc, by omega⟩

/-- Settles O34, by a command's three outcomes and by what a step can do to the registers. -/
theorem countIsTheBytesWritten : Obligations.CountIsTheBytesWritten := by
  refine ⟨fun i s => ?_, fun s t h => ⟨?_, fun ht => (step_results_of_fault h ht).2.2, fun hne => ?_⟩, rfl⟩
  · obtain ⟨t, ht, ho⟩ := exec_outcome i s
    refine ⟨t, ht, ?_⟩
    cases ho with
    | ignored hf => simp [hf]
    | raised => simp
    | accepted hf => simp [hf]
  · cases step_effect h with
    | command _ _ _ _ hc => exact (commandWrite_result hc).count_cases
    | reset => exact .inr (.inl rfl)
    | quiet _ _ _ hq => exact .inl hq.count
  · cases step_effect h with
    | command w rest _ hp => exact .inl ⟨w, rest, hp⟩
    | reset rest hp => exact .inr ⟨rest, hp⟩
    | quiet _ _ _ hq => exact absurd hq.count hne

/-- Settles O35, by a command's three outcomes. -/
theorem matchIsTheCheckResult : Obligations.MatchIsTheCheckResult := by
  refine ⟨fun i s hi => ?_, fun n o s => ?_, exec_with_matchBit,
    fun s t h ht => (step_results_of_fault h ht).2.1, rfl, statusWord_bit_zero⟩
  · obtain ⟨t, ht, ho⟩ := exec_outcome i s
    refine ⟨t, ht, ?_⟩
    cases ho with
    | ignored hf => simp [hf]
    | raised => simp
    | accepted hf => simp [hf, State.accept_matchBit s i hi]
  · obtain ⟨t, ht, ho⟩ := exec_outcome (.check n o) s
    refine ⟨t, ht, fun hf => ((exec_result ht).results_of_fault hf).2.1, fun hf => ?_⟩
    cases ho with
    | ignored hn => simp [hf] at hn
    | raised => simp at hf
    | accepted => exact s.accept_check_matchBit n o

/-- Settles O38, by a command's three outcomes. -/
theorem frameOfTheNonStoringCommands : Obligations.FrameOfTheNonStoringCommands := by
  intro i s t hi h
  obtain ⟨hsize, hpending, hpc, hreg, hbuf⟩ := (exec_result h).sameHost
  suffices hframe : t.mem = s.mem ∧ ((t.fault = s.fault ∧ t.cause = s.cause) ∨
      (t.crc = s.crc ∧ t.matchBit = s.matchBit ∧ t.count = s.count)) from
    ⟨fun a => congrArg (Memory.read · a) hframe.1, hsize, hpending, hpc, hreg, hbuf, hframe.2⟩
  cases exec_outcome_of_next h with
  | ignored => exact ⟨rfl, .inl ⟨rfl, rfl⟩⟩
  | raised => exact ⟨rfl, .inr ⟨rfl, rfl, rfl⟩⟩
  | accepted => exact ⟨s.accept_mem i hi, .inl ⟨s.accept_fault i, s.accept_cause i⟩⟩

/-- Settles O43, from two invariants of runs: that of the machine, and what MATCH and COUNT tell of the last
accepted command. -/
theorem statusInEveryReachableState : Obligations.StatusInEveryReachableState := by
  intro s last h
  obtain ⟨⟨hclear, hset, hcount, -⟩, -⟩ := reached_inv h
  obtain ⟨hcheck, happend⟩ := reached_tellsLast h
  exact ⟨hclear, hset, hcount, hcheck, happend⟩

/-- Settles O44, by the host's next action. -/
theorem stepTakesUpOneHostAction : Obligations.StepTakesUpOneHostAction := by
  refine ⟨fun s t h => ?_, fun i s t h => (exec_result h).sameHost.pc⟩
  obtain ⟨hp, rfl⟩ | ⟨a, rest, hp, ha⟩ := step_cases h
  · simp [hp]
  · cases ha with
    | command w _ hc =>
      obtain ⟨hsize, hpending, hpc, -, -⟩ := hc.sameHost
      simp [hp, hsize, hpending, hpc]
    | regRead | bufWrite | bufRead | reset => simp [hp]

/-- Settles O7: a command write of a word that decodes to a command runs it. -/
theorem stepRunsTheDecodedCommand : Obligations.StepRunsTheDecodedCommand :=
  fun _ _ _ _ hp _ hd => (step_commandWrite hp).trans (commandWrite_of_command hd _)

/-- Settles O42: the registers are at their reset values and the memory is empty. -/
theorem resetMeetsTheInvariant : Obligations.ResetMeetsTheInvariant :=
  State.reset_inv

end Sys2Proof.Proofs

/-! PROOF. The rules the proofs of 20_memory.md cite: the launch state, the buffer after a write and after an APPEND,
the bytes a command's outcome depends on, the decoder on an encoded command, and the host's actions one at a time. -/

namespace Sys2Proof.Machine

open Sys2Proof.Claims

/-! ### Launch -/

theorem State.launch_engineReset (image : List Byte) (actions : List HostAction) :
    (State.launch image actions).engineReset = true := by
  have hstatus : statusWord (State.launch image actions) = 0#32 :=
    statusWord_resetEngine (State.launch image actions)
  rw [State.engineReset, hstatus]
  rfl

theorem State.launch_bufferBytes (image : List Byte) (actions : List HostAction) :
    (State.launch image actions).bufferBytes = image := by
  refine List.ext_getElem (by simp [State.bufferBytes, State.launch]) fun k _ hk => ?_
  simp only [State.bufferBytes, List.getElem_map, List.getElem_range]
  exact State.launch_readByte image actions hk

/-! ### Writing bytes -/

/-- Writing the byte an offset already holds changes nothing. -/
theorem Memory.write_eq_self {m : Memory} (h : m.wf = true) {i : Nat} {v : Byte} (hv : m.read i = v) :
    m.write i v = m := by
  refine Memory.ext_wf _ _ (Memory.wf_write m i v h) h fun j => ?_
  by_cases hj : i = j
  · rw [← hj, Memory.read_write_same m i v h, hv]
  · exact Memory.read_write_other m i j v hj

section

variable {s : State}

theorem State.writeByte_eq_self (h : s.mem.wf = true) {i : Nat} {v : Byte} (hv : s.readByte i = v) :
    s.writeByte i v = s := by
  rw [State.writeByte, Memory.write_eq_self h hv]

theorem State.readByte_writeByte_same (h : s.mem.wf = true) (i : Nat) (v : Byte) :
    (s.writeByte i v).readByte i = v :=
  Memory.read_write_same s.mem i v h

theorem State.readByte_writeByte_other {i j : Nat} (h : i ≠ j) (v : Byte) :
    (s.writeByte i v).readByte j = s.readByte j :=
  Memory.read_write_other s.mem i j v h

end

theorem State.crcOf_congr {s s' : State} {n : Nat} (h : ∀ a, a < n → s.readByte a = s'.readByte a) :
    s.crcOf n = s'.crcOf n :=
  crc16_congr s.readByte s'.readByte n h

/-! ### The buffer after an accepted APPEND (R100) -/

section

variable {s : State} (n : Nat) (o : ByteOrder)

theorem State.accept_append_readByte_other {a : Nat} (hn : a ≠ n) (hn' : a ≠ n + 1) :
    (s.accept (.append n o)).readByte a = s.readByte a :=
  (State.readByte_writeByte_other hn'.symm _).trans (State.readByte_writeByte_other hn.symm _)

theorem State.accept_append_readByte_low (h : s.mem.wf = true) :
    (s.accept (.append n o)).readByte n = (crcBytes (s.crcOf n) o).1 :=
  (State.readByte_writeByte_other (by omega) _).trans (State.readByte_writeByte_same h n _)

theorem State.accept_append_readByte_high (h : s.mem.wf = true) :
    (s.accept (.append n o)).readByte (n + 1) = (crcBytes (s.crcOf n) o).2 :=
  State.readByte_writeByte_same (s := s.writeByte n _) (Memory.wf_write s.mem n _ h) (n + 1) _

theorem State.accept_append_mem_wf (h : s.mem.wf = true) : (s.accept (.append n o)).mem.wf = true :=
  Memory.wf_write _ _ _ (Memory.wf_write s.mem n _ h)

theorem State.accept_append_crcOf : (s.accept (.append n o)).crcOf n = s.crcOf n :=
  State.crcOf_congr fun _ ha => State.accept_append_readByte_other n o (by omega) (by omega)

/-- An accepted APPEND, repeated, computes the same CRC and finds its two bytes written (R49). -/
theorem State.accept_append_idempotent (h : s.mem.wf = true) :
    (s.accept (.append n o)).accept (.append n o) = s.accept (.append n o) := by
  have hwf := State.accept_append_mem_wf n o h
  have hlow := State.writeByte_eq_self hwf (State.accept_append_readByte_low n o h)
  have hhigh := State.writeByte_eq_self hwf (State.accept_append_readByte_high n o h)
  calc (s.accept (.append n o)).accept (.append n o)
      = (((s.accept (.append n o)).writeByte n (crcBytes (s.crcOf n) o).1).writeByte (n + 1)
          (crcBytes (s.crcOf n) o).2).complete (s.crcOf n) false 2#4 := by
        rw [State.accept, State.accept_append_crcOf]
    _ = (s.accept (.append n o)).complete (s.crcOf n) false 2#4 := by rw [hlow, hhigh]
    _ = s.accept (.append n o) := rfl

end

/-! ### The bytes a command's outcome depends on -/

theorem two_le_of_check_unfaulted {size n : Nat} {o : ByteOrder} (h : faultOf size (.check n o) = none) :
    2 ≤ n := by
  by_contra hn
  rw [faultOf, if_pos (by omega)] at h
  cases h

/-- What two accepted runs of a command that seeds itself leave in CRC and MATCH depends on the bytes below its
LEN alone (R48). -/
theorem State.accept_results_congr {s s' : State} {i : Instr} (hi : seedsItself i = true)
    (hw : faultOf s.bufSize i = none) (hb : ∀ a, a < readsBelow i → s.readByte a = s'.readByte a) :
    (s.accept i).crc = (s'.accept i).crc ∧ (s.accept i).matchBit = (s'.accept i).matchBit := by
  cases i with
  | init => exact ⟨rfl, rfl⟩
  | update => simp [seedsItself] at hi
  | compute | append => exact ⟨State.crcOf_congr hb, rfl⟩
  | check n o =>
    have hn : 2 ≤ n := two_le_of_check_unfaulted hw
    rw [readsBelow] at hb
    have hcrc : s.crcOf (n - 2) = s'.crcOf (n - 2) := State.crcOf_congr fun a ha => hb a (by omega)
    simp [State.accept, State.trailingBytesAre, hcrc, hb (n - 2) (by omega), hb (n - 1) (by omega)]

/-! ### The decoder on an encoded command -/

/-- The command word field by field (R61). -/
theorem commandWord_toNat (len : BitVec 16) (data : Byte) (rev : BitVec 1) (op : BitVec 4) :
    (commandWord len data rev op).toNat = len.toNat * 65536 + data.toNat * 256 + rev.toNat * 16 + op.toNat := by
  simp only [commandWord, toNat_append_eq_add, BitVec.toNat_ofNat]
  omega

section

variable (len : BitVec 16) (data : Byte) (rev : BitVec 1) (op : BitVec 4)

@[simp] theorem fieldOp_commandWord : fieldOp (commandWord len data rev op) = op :=
  (Laws.FixedFields.commandWord_fields len data rev op).1

@[simp] theorem fieldRsv_commandWord : fieldRsv (commandWord len data rev op) = 0#3 :=
  (Laws.FixedFields.commandWord_fields len data rev op).2

@[simp] theorem fieldRev_commandWord : fieldRev (commandWord len data rev op) = rev := by
  apply BitVec.eq_of_toNat_eq
  rw [fieldRev, BitVec.extractLsb'_toNat, commandWord_toNat, Nat.shiftRight_eq_div_pow]
  omega

@[simp] theorem fieldData_commandWord : fieldData (commandWord len data rev op) = data := by
  apply BitVec.eq_of_toNat_eq
  rw [fieldData, BitVec.extractLsb'_toNat, commandWord_toNat, Nat.shiftRight_eq_div_pow]
  omega

@[simp] theorem fieldLen_commandWord : fieldLen (commandWord len data rev op) = len := by
  apply BitVec.eq_of_toNat_eq
  rw [fieldLen, BitVec.extractLsb'_toNat, commandWord_toNat, Nat.shiftRight_eq_div_pow]
  omega

end

@[simp] theorem ofRev_toRev (o : ByteOrder) : ByteOrder.ofRev o.toRev = o := by
  cases o <;> rfl

theorem toNat_ofNat_of_lenFits {n : Nat} (h : lenFits n = true) : (BitVec.ofNat 16 n).toNat = n := by
  rw [BitVec.toNat_ofNat, Nat.mod_eq_of_lt (of_decide_eq_true h)]

/-- Every well-formed command's word decodes to it (R65, R68). -/
theorem decode_encode {i : Instr} (h : i.wf = true) : decode (encode i) = .command i := by
  cases i with
  | init | update => simp [encode, decode, Decoded.ofUnused]
  | compute n | append n o | check n o =>
    simp [encode, decode, Decoded.ofUnused, toNat_ofNat_of_lenFits h]

/-! ### A command in the host's sequence -/

theorem step_hostWrites {s : State} {i : Instr} {rest : List HostAction} (h : i.wf = true)
    (hp : s.pending = hostWrites i :: rest) : step s = exec i (s.takeUp rest).advancePc :=
  (step_commandWrite hp).trans (commandWrite_of_command (decode_encode h) _)

theorem State.accept_takeUp (s : State) (i : Instr) (rest : List HostAction) :
    (s.takeUp rest).accept i = (s.accept i).takeUp rest := by
  cases i <;> rfl

/-- No command looks at what the host has still to do. -/
theorem exec_takeUp {i : Instr} {s t : State} (h : exec i s = .next t) (rest : List HostAction) :
    exec i (s.takeUp rest) = .next (t.takeUp rest) := by
  cases exec_outcome_of_next h with
  | ignored hf => exact exec_of_fault (s := s.takeUp rest) hf i
  | raised hf why hw =>
    rw [exec_of_unfaulted (s := s.takeUp rest) hf i, State.takeUp_bufSize, hw]
    rfl
  | accepted hf hw =>
    rw [exec_of_unfaulted (s := s.takeUp rest) hf i, State.takeUp_bufSize, hw, Option.elim_none,
      State.accept_takeUp]

theorem step_readCrc {s : State} {rest : List HostAction} (hp : s.pending = .readReg 4 32 :: rest) :
    step s = .next ((s.takeUp rest).logRegRead (crcWord s)) :=
  step_of_pending hp

theorem step_readStatus {s : State} {rest : List HostAction} (hp : s.pending = .readReg 8 32 :: rest) :
    step s = .next ((s.takeUp rest).logRegRead (statusWord s)) :=
  step_of_pending hp

theorem step_writeBuf {s : State} {off : Nat} {v : Byte} {rest : List HostAction}
    (hp : s.pending = .writeBuf off v :: rest) (h : off < s.bufSize) :
    step s = .next ((s.takeUp rest).writeByte off v) :=
  (step_of_pending hp).trans (if_pos h)

theorem step_readBuf {s : State} {off : Nat} {rest : List HostAction} (hp : s.pending = .readBuf off :: rest)
    (h : off < s.bufSize) : step s = .next ((s.takeUp rest).logBufRead (s.readByte off)) :=
  (step_of_pending hp).trans (if_pos h)

theorem step_buf_outside {s : State} {off : Nat} {v : Byte} {rest : List HostAction}
    (hp : s.pending = .writeBuf off v :: rest ∨ s.pending = .readBuf off :: rest) (h : s.bufSize ≤ off) :
    step s = .fault (.noSuchOffset off) := by
  obtain hp | hp := hp <;> exact (step_of_pending hp).trans (if_neg (Nat.not_lt.2 h))

theorem runSteps_one (s : State) : runSteps 1 s = nextState? (step s) := by
  rw [runSteps]
  exact Option.bind_fun_some _

end Sys2Proof.Machine

/-! PROOF. The statements of 20_memory.md. -/

namespace Sys2Proof.Proofs

open Sys2Proof.Machine Sys2Proof.Claims

/-- Settles O13, from the laws of the launch image and of the invariant. -/
theorem launchIsEngineResetWithItsImage : Obligations.LaunchIsEngineResetWithItsImage :=
  fun image actions => ⟨State.launch_engineReset image actions, rfl, State.launch_bufferBytes image actions, rfl,
    State.launch_inv image actions⟩

/-- Settles O33: the first APPEND is accepted, and its repetition finds its own bytes and CRC. -/
theorem appendIsIdempotent : Obligations.AppendIsIdempotent := by
  rintro s n o ⟨hwf, -⟩ hf hn
  have hw : faultOf s.bufSize (.append n o) = none := by
    rw [faultOf, if_neg (by omega), if_neg (by omega)]
  refine ⟨s.accept (.append n o), by rw [exec_of_unfaulted hf, hw, Option.elim_none], ?_⟩
  have hsize : (s.accept (.append n o)).bufSize = s.bufSize := rfl
  rw [exec_of_unfaulted (s := s.accept (.append n o)) hf, hsize, hw, Option.elim_none,
    State.accept_append_idempotent n o hwf]

/-- Settles O36: both states raise the same fault, or both accept and leave the same results. -/
theorem resultsDependOnTheFrameBytesOnly : Obligations.ResultsDependOnTheFrameBytesOnly := by
  intro i s s' hi hf hf' hsize hb
  refine ⟨_, _, exec_of_unfaulted hf i, exec_of_unfaulted hf' i, ?_⟩
  rw [← hsize]
  cases hw : faultOf s.bufSize i with
  | some why => exact ⟨rfl, fun _ => rfl, by simp⟩
  | none =>
    obtain ⟨hcrc, hmatch⟩ := State.accept_results_congr hi hw hb
    exact ⟨by simp [hf, hf'], by simp [hf], fun _ => ⟨hcrc, hmatch, by simp⟩⟩

/-- Settles O40, access by access, by the laws of memory. -/
theorem hostBufferAccesses : Obligations.HostBufferAccesses := by
  rintro s rest off ⟨hwf, -⟩
  refine ⟨fun v hp ho => ⟨_, step_writeBuf hp ho, ?_, fun a ha => ?_, rfl⟩, step_readBuf,
    fun _ => step_buf_outside⟩
  · exact State.readByte_writeByte_same (s := s.takeUp rest) hwf off v
  · exact State.readByte_writeByte_other (s := s.takeUp rest) ha.symm v

/-- Settles O46, action by action: a command does not look at the host's queue, so the reads that follow it find
the registers as it left them. -/
theorem commandEffectsAreSeenInOrder : Obligations.CommandEffectsAreSeenInOrder := by
  refine ⟨fun s i rest hi _ hp => ?_, fun s off v i rest hi _ ho hp => ?_⟩
  · obtain ⟨t, ht, -⟩ := exec_cases i (s.takeUp rest).advancePc
    obtain ⟨-, hpending, -, hreads, -⟩ := (exec_result ht).sameHost
    refine ⟨t, ht, ?_⟩
    rw [runSteps_succ 2 s _ ((step_hostWrites hi hp).trans (exec_takeUp ht (.readReg 4 32 :: .readReg 8 32 :: rest))),
      runSteps_succ 1 _ _ (step_readCrc rfl), runSteps_succ 0 _ _ (step_readStatus rfl)]
    simp [State.takeUp, State.logRegRead, crcWord, statusWord, hpending, hreads]
  · rw [runSteps_succ 1 s _ (step_writeBuf hp ho), runSteps_one, step_hostWrites hi rfl]
    rfl

end Sys2Proof.Proofs

/-! PROOF. The rules the proofs of 30_encoding.md cite: the fields of a word on numbers, the decoder OP value by OP
value, the word of each command on numbers, and what a row of the opcode table selects. -/

namespace Sys2Proof.Machine

open Sys2Proof.Claims

/-! ### The fields of a word on numbers (R61, R62) -/

section

variable (w : Word)

@[simp] theorem fieldOp_toNat : (fieldOp w).toNat = opOf w := by
  rw [fieldOp, BitVec.extractLsb'_toNat, Nat.shiftRight_eq_div_pow, opOf, Nat.div_one]

@[simp] theorem fieldRev_toNat : (fieldRev w).toNat = revOf w := by
  rw [fieldRev, BitVec.extractLsb'_toNat, Nat.shiftRight_eq_div_pow, revOf]

@[simp] theorem fieldRsv_toNat : (fieldRsv w).toNat = rsvOf w := by
  rw [fieldRsv, BitVec.extractLsb'_toNat, Nat.shiftRight_eq_div_pow, rsvOf]

@[simp] theorem fieldData_toNat : (fieldData w).toNat = dataOf w := by
  rw [fieldData, BitVec.extractLsb'_toNat, Nat.shiftRight_eq_div_pow, dataOf]

@[simp] theorem fieldLen_toNat : (fieldLen w).toNat = lenOf w := by
  rw [fieldLen, BitVec.extractLsb'_toNat, Nat.shiftRight_eq_div_pow, lenOf]
  omega

@[simp] theorem fieldOp_eq_iff (x : BitVec 4) : fieldOp w = x ↔ opOf w = x.toNat := by
  rw [← BitVec.toNat_inj, fieldOp_toNat]

@[simp] theorem fieldRev_eq_iff (x : BitVec 1) : fieldRev w = x ↔ revOf w = x.toNat := by
  rw [← BitVec.toNat_inj, fieldRev_toNat]

@[simp] theorem fieldRsv_eq_iff (x : BitVec 3) : fieldRsv w = x ↔ rsvOf w = x.toNat := by
  rw [← BitVec.toNat_inj, fieldRsv_toNat]

@[simp] theorem fieldData_eq_iff (x : Byte) : fieldData w = x ↔ dataOf w = x.toNat := by
  rw [← BitVec.toNat_inj, fieldData_toNat]

@[simp] theorem fieldLen_eq_iff (x : BitVec 16) : fieldLen w = x ↔ lenOf w = x.toNat := by
  rw [← BitVec.toNat_inj, fieldLen_toNat]

@[simp] theorem ofNat_dataOf : BitVec.ofNat 8 (dataOf w) = fieldData w := by
  rw [← fieldData_toNat, BitVec.ofNat_toNat, BitVec.setWidth_eq]

theorem lenOf_lt : lenOf w < 65536 := by
  rw [lenOf]
  omega

theorem revOf_lt : revOf w < 2 := Nat.mod_lt _ (by decide)

/-- A word is its fields in their places. -/
theorem toNat_eq_fields :
    w.toNat = lenOf w * 65536 + dataOf w * 256 + rsvOf w * 32 + revOf w * 16 + opOf w := by
  simp only [lenOf, dataOf, rsvOf, revOf, opOf]
  omega

@[simp] theorem ofRev_fieldRev : ByteOrder.ofRev (fieldRev w) = orderOfRev (revOf w) := by
  simp [ByteOrder.ofRev, orderOfRev]

end

theorem toRev_orderOfRev_toNat {r : Nat} (h : r < 2) : (orderOfRev r).toRev.toNat = r := by
  interval_cases r <;> rfl

/-- Words with equal fields are equal. -/
theorem word_eq_iff_fields {w w' : Word} :
    w = w' ↔ fieldLen w = fieldLen w' ∧ fieldData w = fieldData w' ∧ fieldRsv w = fieldRsv w' ∧
      fieldRev w = fieldRev w' ∧ fieldOp w = fieldOp w' := by
  simp only [fieldLen_eq_iff, fieldData_eq_iff, fieldRsv_eq_iff, fieldRev_eq_iff, fieldOp_eq_iff, fieldLen_toNat,
    fieldData_toNat, fieldRsv_toNat, fieldRev_toNat, fieldOp_toNat]
  constructor
  · rintro rfl
    exact ⟨rfl, rfl, rfl, rfl, rfl⟩
  · rintro ⟨hlen, hdata, hrsv, hrev, hop⟩
    rw [← BitVec.toNat_inj, toNat_eq_fields w, hlen, hdata, hrsv, hrev, hop, ← toNat_eq_fields w']

/-! ### The decoder, OP value by OP value (R65) -/

section

variable {d : Decoded} {p : Prop} [Decidable p] {i : Instr} {why : Illegal}

theorem isIllegal_iff_forall_ne : d.isIllegal = true ↔ ∀ i, d ≠ .command i := by
  cases d <;> simp [Decoded.isIllegal]

theorem isIllegal_iff_of_eq_ite (h : d = if p then .command i else .illegal why) : d.isIllegal = true ↔ ¬ p := by
  by_cases hp : p <;> simp [h, hp, Decoded.isIllegal]

theorem command_or_isIllegal_of_eq_ite (h : d = if p then .command i else .illegal why) :
    if p then d = .command i else d.isIllegal = true := by
  by_cases hp : p <;> simp [h, hp, Decoded.isIllegal]

theorem of_command_eq_ite {j : Instr} (h : d = if p then .command i else .illegal why) (hd : d = .command j) :
    p ∧ j = i := by
  rw [hd] at h
  split at h
  next hp =>
    cases h
    exact ⟨hp, rfl⟩
  next => cases h

end

theorem decode_of_rsv {w : Word} (hr : rsvOf w ≠ 0) : decode w = .illegal .reservedBits := by
  simp [decode, hr]

section

variable {w : Word} (hr : rsvOf w = 0)

include hr

theorem decode_of_op_one (ho : opOf w = 1) :
    decode w = if revOf w = 0 ∧ dataOf w = 0 ∧ lenOf w = 0 then .command .init else .illegal .unusedField := by
  simp [decode, Decoded.ofUnused, hr, ho]

theorem decode_of_op_two (ho : opOf w = 2) :
    decode w = if revOf w = 0 ∧ lenOf w = 0 then .command (.update (BitVec.ofNat 8 (dataOf w)))
      else .illegal .unusedField := by
  simp [decode, Decoded.ofUnused, hr, ho]

theorem decode_of_op_three (ho : opOf w = 3) :
    decode w = if revOf w = 0 ∧ dataOf w = 0 then .command (.compute (lenOf w)) else .illegal .unusedField := by
  simp [decode, Decoded.ofUnused, hr, ho]

theorem decode_of_op_four (ho : opOf w = 4) :
    decode w = if dataOf w = 0 then .command (.append (lenOf w) (orderOfRev (revOf w)))
      else .illegal .unusedField := by
  simp [decode, Decoded.ofUnused, hr, ho]

theorem decode_of_op_five (ho : opOf w = 5) :
    decode w = if dataOf w = 0 then .command (.check (lenOf w) (orderOfRev (revOf w)))
      else .illegal .unusedField := by
  simp [decode, Decoded.ofUnused, hr, ho]

theorem decode_of_op_reserved (ho : opOf w = 0 ∨ 6 ≤ opOf w) : decode w = .illegal .reservedOp := by
  obtain ⟨h1, h2, h3, h4, h5⟩ : opOf w ≠ 1 ∧ opOf w ≠ 2 ∧ opOf w ≠ 3 ∧ opOf w ≠ 4 ∧ opOf w ≠ 5 := by omega
  simp [decode, hr, h1, h2, h3, h4, h5]

end

theorem opOf_cases (w : Word) :
    opOf w = 1 ∨ opOf w = 2 ∨ opOf w = 3 ∨ opOf w = 4 ∨ opOf w = 5 ∨ (opOf w = 0 ∨ 6 ≤ opOf w) := by
  omega

/-! ### The illegal words (R66) -/

theorem illegalWord_iff_isIllegal (w : Word) : IllegalWord w ↔ (decode w).isIllegal = true := by
  by_cases hr : rsvOf w = 0
  · rw [IllegalWord]
    obtain ho | ho | ho | ho | ho | ho := opOf_cases w
    · rw [isIllegal_iff_of_eq_ite (decode_of_op_one hr ho)]
      omega
    · rw [isIllegal_iff_of_eq_ite (decode_of_op_two hr ho)]
      omega
    · rw [isIllegal_iff_of_eq_ite (decode_of_op_three hr ho)]
      omega
    · rw [isIllegal_iff_of_eq_ite (decode_of_op_four hr ho)]
      omega
    · rw [isIllegal_iff_of_eq_ite (decode_of_op_five hr ho)]
      omega
    · rw [decode_of_op_reserved hr ho]
      exact iff_of_true (by omega) rfl
  · rw [decode_of_rsv hr]
    exact iff_of_true (.inr (.inr (.inl hr))) rfl

theorem not_illegalWord_iff_command (w : Word) : ¬ IllegalWord w ↔ ∃ i, decode w = .command i := by
  simp [illegalWord_iff_isIllegal, isIllegal_iff_forall_ne]

theorem illegal_of_illegalWord {w : Word} (h : IllegalWord w) : ∃ why, decode w = .illegal why := by
  cases hd : decode w with
  | command i => exact absurd h ((not_illegalWord_iff_command w).2 ⟨i, hd⟩)
  | illegal why => exact ⟨why, rfl⟩

/-! ### The word of a command on numbers (R68) -/

theorem lenFits_iff {n : Nat} : lenFits n = true ↔ n < 65536 := decide_eq_true_iff

theorem encode_init_toNat : (encode .init).toNat = 1 := rfl

theorem encode_update_toNat (d : Byte) : (encode (.update d)).toNat = d.toNat * 256 + 2 := by
  simp [encode, commandWord_toNat]

section

variable {n : Nat} (h : lenFits n = true) (o : ByteOrder)

include h

theorem encode_compute_toNat : (encode (.compute n)).toNat = n * 65536 + 3 := by
  rw [encode, commandWord_toNat, toNat_ofNat_of_lenFits h]
  norm_num

theorem encode_append_toNat : (encode (.append n o)).toNat = n * 65536 + o.toRev.toNat * 16 + 4 := by
  rw [encode, commandWord_toNat, toNat_ofNat_of_lenFits h]
  norm_num

theorem encode_check_toNat : (encode (.check n o)).toNat = n * 65536 + o.toRev.toNat * 16 + 5 := by
  rw [encode, commandWord_toNat, toNat_ofNat_of_lenFits h]
  norm_num

end

/-- A word that decodes to a command holds that command's fields, and 0 in the others (R64). -/
theorem encode_of_decode {w : Word} {i : Instr} (h : decode w = .command i) : i.wf = true ∧ encode i = w := by
  have hr : rsvOf w = 0 := by
    by_contra hr
    rw [decode_of_rsv hr] at h
    cases h
  have hw := toNat_eq_fields w
  have hlen : lenFits (lenOf w) = true := lenFits_iff.2 (lenOf_lt w)
  have hrev := toRev_orderOfRev_toNat (revOf_lt w)
  rw [← BitVec.toNat_inj]
  obtain ho | ho | ho | ho | ho | ho := opOf_cases w
  · obtain ⟨hz, rfl⟩ := of_command_eq_ite (decode_of_op_one hr ho) h
    exact ⟨rfl, by rw [encode_init_toNat]; omega⟩
  · obtain ⟨hz, rfl⟩ := of_command_eq_ite (decode_of_op_two hr ho) h
    exact ⟨rfl, by rw [encode_update_toNat, ofNat_dataOf, fieldData_toNat]; omega⟩
  · obtain ⟨hz, rfl⟩ := of_command_eq_ite (decode_of_op_three hr ho) h
    exact ⟨hlen, by rw [encode_compute_toNat hlen]; omega⟩
  · obtain ⟨hz, rfl⟩ := of_command_eq_ite (decode_of_op_four hr ho) h
    exact ⟨hlen, by rw [encode_append_toNat hlen]; omega⟩
  · obtain ⟨hz, rfl⟩ := of_command_eq_ite (decode_of_op_five hr ho) h
    exact ⟨hlen, by rw [encode_check_toNat hlen]; omega⟩
  · rw [decode_of_op_reserved hr ho] at h
    cases h

/-! ### The rows of the opcode table (R64) -/

theorem mem_opcodeRows_iff {r : OpcodeRow} : r ∈ opcodeRows ↔ ∃ i : Instr, i.row = r := by
  constructor
  · intro h
    obtain ⟨i, -, rfl⟩ : ∃ i ∈ [Instr.init, .update 0, .compute 0, .append 0 .lohi, .check 0 .lohi], i.row = r :=
      List.mem_map.1 h
    exact ⟨i, rfl⟩
  · rintro ⟨i, rfl⟩
    cases i <;> simp [opcodeRows, Instr.row]

theorem and_eq_left_of_eq_allOnes {n : Nat} {x m : BitVec n} (h : m = BitVec.allOnes n) : x &&& m = x := by
  rw [h, BitVec.and_allOnes]

/-- A word matches a pattern under a mask when it does so field by field. -/
theorem and_mask_eq_iff {w mask pattern : Word} :
    w &&& mask = pattern ↔
      fieldLen w &&& mask.extractLsb' 16 16 = pattern.extractLsb' 16 16 ∧
      fieldData w &&& mask.extractLsb' 8 8 = pattern.extractLsb' 8 8 ∧
      fieldRsv w &&& mask.extractLsb' 5 3 = pattern.extractLsb' 5 3 ∧
      fieldRev w &&& mask.extractLsb' 4 1 = pattern.extractLsb' 4 1 ∧
      fieldOp w &&& mask.extractLsb' 0 4 = pattern.extractLsb' 0 4 := by
  rw [word_eq_iff_fields]
  simp only [fieldLen, fieldData, fieldRsv, fieldRev, fieldOp, BitVec.extractLsb'_and]

/-- Every command's word selects the command's row. -/
theorem encode_and_row_mask (i : Instr) : encode i &&& i.row.mask = i.row.pattern := by
  cases i with
  | init => rfl
  | update | compute | append | check =>
    simp [and_mask_eq_iff, Instr.row, encode, and_eq_left_of_eq_allOnes]

/-- A word that selects a command's row decodes to a command of that row. -/
theorem exists_command_of_and_row_mask {w : Word} {i : Instr} (h : w &&& i.row.mask = i.row.pattern) :
    ∃ j, decode w = .command j ∧ j.row = i.row := by
  cases i with
  | init =>
    obtain rfl : w = 1#32 := by simpa [Instr.row, and_eq_left_of_eq_allOnes] using h
    exact ⟨.init, by decide, rfl⟩
  | update =>
    obtain ⟨hlen, hr, hrev, ho⟩ : lenOf w = 0 ∧ rsvOf w = 0 ∧ revOf w = 0 ∧ opOf w = 2 := by
      simpa [and_mask_eq_iff, Instr.row, and_eq_left_of_eq_allOnes] using h
    exact ⟨_, (decode_of_op_two hr ho).trans (if_pos ⟨hrev, hlen⟩), rfl⟩
  | compute =>
    obtain ⟨hdata, hr, hrev, ho⟩ : dataOf w = 0 ∧ rsvOf w = 0 ∧ revOf w = 0 ∧ opOf w = 3 := by
      simpa [and_mask_eq_iff, Instr.row, and_eq_left_of_eq_allOnes] using h
    exact ⟨_, (decode_of_op_three hr ho).trans (if_pos ⟨hrev, hdata⟩), rfl⟩
  | append =>
    obtain ⟨hdata, hr, ho⟩ : dataOf w = 0 ∧ rsvOf w = 0 ∧ opOf w = 4 := by
      simpa [and_mask_eq_iff, Instr.row, and_eq_left_of_eq_allOnes] using h
    exact ⟨_, (decode_of_op_four hr ho).trans (if_pos hdata), rfl⟩
  | check =>
    obtain ⟨hdata, hr, ho⟩ : dataOf w = 0 ∧ rsvOf w = 0 ∧ opOf w = 5 := by
      simpa [and_mask_eq_iff, Instr.row, and_eq_left_of_eq_allOnes] using h
    exact ⟨_, (decode_of_op_five hr ho).trans (if_pos hdata), rfl⟩

theorem and_row_mask_iff {w : Word} {r : OpcodeRow} (hr : r ∈ opcodeRows) :
    w &&& r.mask = r.pattern ↔ ∃ i, decode w = .command i ∧ i.row = r := by
  obtain ⟨i, rfl⟩ := mem_opcodeRows_iff.1 hr
  refine ⟨exists_command_of_and_row_mask, ?_⟩
  rintro ⟨j, hd, hrow⟩
  rw [← hrow, ← (encode_of_decode hd).2]
  exact encode_and_row_mask j

theorem no_row_iff_isIllegal (w : Word) :
    (∀ r ∈ opcodeRows, w &&& r.mask ≠ r.pattern) ↔ (decode w).isIllegal = true := by
  rw [isIllegal_iff_forall_ne]
  constructor
  · intro h i hd
    have hi : i.row ∈ opcodeRows := mem_opcodeRows_iff.2 ⟨i, rfl⟩
    exact h i.row hi ((and_row_mask_iff hi).2 ⟨i, hd, rfl⟩)
  · intro h r hr hw
    obtain ⟨i, hd, -⟩ := (and_row_mask_iff hr).1 hw
    exact h i hd

/-! ### The lines of assembly (R68) -/

theorem assemble_update_map_word (d : Nat) :
    (assemble (.update d)).map (fun i => (encode i).toNat) = if d < 256 then some (d * 256 + 2) else none := by
  rw [assemble]
  split
  next hd => simp [encode_update_toNat, Nat.mod_eq_of_lt hd]
  next => rfl

/-- A line whose operand is a length assembles to its command's word, or is an error. -/
theorem map_word_of_length {n word : Nat} {i : Instr} (h : lenFits n = true → (encode i).toNat = word) :
    (if lenFits n then some i else none).map (fun i => (encode i).toNat) =
      if n < 65536 then some word else none := by
  by_cases hn : n < 65536
  · have hf := lenFits_iff.2 hn
    simp [hf, hn, h hf]
  · simp [mt lenFits_iff.1 hn, hn]

end Sys2Proof.Machine

/-! PROOF. The statements of 30_encoding.md. -/

namespace Sys2Proof.Proofs

open Sys2Proof.Machine Sys2Proof.Claims

/-- Settles O1: the encoder puts each operand in its own field, where the decoder finds it. -/
theorem decodeOfEncode : Obligations.DecodeOfEncode :=
  fun _ => decode_encode

/-- Settles O2, by the decoder's OP values. -/
theorem decodedWordIsItsCommandsEncoding : Obligations.DecodedWordIsItsCommandsEncoding :=
  fun _ _ => encode_of_decode

/-- Settles O3: a row is selected by the words that decode to its commands, and a word decodes to one thing. -/
theorem opcodeTableSelectsTheCommand : Obligations.OpcodeTableSelectsTheCommand := by
  refine ⟨by decide, fun w r => and_row_mask_iff, fun w r r' hr hr' hw hw' => ?_, no_row_iff_isIllegal,
    fun i hi => ⟨encode i, decode_encode hi, fun w' hd => (encode_of_decode hd).2.symm⟩⟩
  obtain ⟨i, hd, rfl⟩ := (and_row_mask_iff hr).1 hw
  obtain ⟨i', hd', rfl⟩ := (and_row_mask_iff hr').1 hw'
  cases hd.symm.trans hd'
  rfl

/-- Settles O4, OP value by OP value. -/
theorem decodeFollowsItsPseudocode : Obligations.DecodeFollowsItsPseudocode :=
  fun _ => ⟨fun hr => by rw [decode_of_rsv hr]; rfl, fun hr =>
    ⟨fun ho => command_or_isIllegal_of_eq_ite (decode_of_op_one hr ho),
    fun ho => command_or_isIllegal_of_eq_ite (decode_of_op_two hr ho),
    fun ho => command_or_isIllegal_of_eq_ite (decode_of_op_three hr ho),
    fun ho => command_or_isIllegal_of_eq_ite (decode_of_op_four hr ho),
    fun ho => command_or_isIllegal_of_eq_ite (decode_of_op_five hr ho),
    fun ho => by rw [decode_of_op_reserved hr ho]; rfl⟩⟩

/-- Settles O6: each line stands for its command while the operand is in range, and the command's word is known on
numbers. -/
theorem assembledWords : Obligations.AssembledWords := by
  refine ⟨rfl, assemble_update_map_word, fun n => map_word_of_length encode_compute_toNat, fun n r hr => ?_,
    fun n r hr => ?_, fun _ => rfl, fun _ => rfl⟩
  · refine map_word_of_length fun hn => ?_
    rw [encode_append_toNat hn, asmOrder, Option.getD_some, toRev_orderOfRev_toNat hr]
  · refine map_word_of_length fun hn => ?_
    rw [encode_check_toNat hn, asmOrder, Option.getD_some, toRev_orderOfRev_toNat hr]

/-- Settles O8: the illegal words are those the decoder gives no command, and a command write of one only takes the
fault. -/
theorem illegalWordRaisesIllegalCommand : Obligations.IllegalWordRaisesIllegalCommand := by
  refine ⟨illegalWord_iff_isIllegal, not_illegalWord_iff_command, fun s w rest hp hw => ?_⟩
  obtain ⟨why, hd⟩ := illegal_of_illegalWord hw
  rw [step_commandWrite hp]
  exact ⟨commandWrite_of_illegal (s := (s.takeUp rest).advancePc) hd,
    fun hf => commandWrite_of_fault (s := (s.takeUp rest).advancePc) hf w⟩

/-- Settles O5: closed facts about the words of R70's table, one list of them at a time. -/
theorem encodingExamples : Obligations.EncodingExamples :=
  ⟨by decide, by decide, by decide, by decide⟩

end Sys2Proof.Proofs

/-! PROOF. The rules the proofs of 40_crc_generate.md cite: the CRC primitives bit by bit and on numbers, the byte
they absorb, the CRC of a longer run of bytes, and a command of the host's sequence that raises no fault. -/

namespace Sys2Proof.Machine

open Sys2Proof.Claims

/-! ### One shift (R80, R83) -/

/-- The polynomial's bits: 15, 13 and 0. -/
theorem crcPoly_getLsbD :
    ∀ i, i < 16 → crcPoly.getLsbD i = (decide (i = 15) || decide (i = 13) || decide (i = 0)) := by decide

theorem crcShift1_toNat (c : Crc) :
    (crcShift1 c).toNat = if c.toNat % 2 = 1 then (c.toNat / 2) ^^^ 0xA001 else c.toNat / 2 := by
  have hbit : c.getLsbD 0 = decide (c.toNat % 2 = 1) := Nat.testBit_zero c.toNat
  have hshift : (c >>> 1).toNat = c.toNat / 2 := by simp [Nat.shiftRight_eq_div_pow]
  rw [crcShift1, hbit, ← hshift]
  split
  next hodd => rw [if_pos (of_decide_eq_true hodd)]; rfl
  next heven => rw [if_neg fun hodd => heven (decide_eq_true hodd)]

/-- A shift right by one, XORed with the polynomial when the old bit 0 is set. -/
theorem crcShift1_getLsbD (c : Crc) (i : Nat) :
    (crcShift1 c).getLsbD i = (c.getLsbD (i + 1) ^^ (c.getLsbD 0 && crcPoly.getLsbD i)) := by
  rw [crcShift1, Nat.add_comm i 1]
  cases c.getLsbD 0 <;> simp

/-- The polynomial has bit 15 and the shifted CRC has not, so the old bit 0 can be read there. -/
theorem crcShift1_getLsbD_fifteen (c : Crc) : (crcShift1 c).getLsbD 15 = c.getLsbD 0 := by
  rw [crcShift1_getLsbD, BitVec.getLsbD_of_ge c (15 + 1) (by decide), crcPoly_getLsbD 15 (by decide)]
  simp

/-- Bit 15 of the result gives the old bit 0 back, and with it every other bit. -/
theorem crcShift1_injective : Function.Injective crcShift1 := by
  intro c c' h
  have hzero : c.getLsbD 0 = c'.getLsbD 0 := by
    rw [← crcShift1_getLsbD_fifteen, h, crcShift1_getLsbD_fifteen]
  refine BitVec.eq_of_getLsbD_eq fun i _ => ?_
  cases i with
  | zero => exact hzero
  | succ i =>
    have hbit : (crcShift1 c).getLsbD i = (crcShift1 c').getLsbD i := by rw [h]
    rw [crcShift1_getLsbD, crcShift1_getLsbD, hzero] at hbit
    exact Bool.xor_left_inj.1 hbit

/-! ### One byte (R81, R83) -/

theorem crcShifts_eq_iterate (k : Nat) (c : Crc) : crcShifts k c = crcShift1^[k] c := by
  induction k generalizing c with
  | zero => rfl
  | succ k ih => exact ih (crcShift1 c)

theorem crcStep_eq_iterate (c : Crc) (b : Byte) : crcStep c b = crcShift1^[8] (c ^^^ zext16 b) :=
  crcShifts_eq_iterate 8 _

theorem lo8_zext16 (b : Byte) : lo8 (zext16 b) = b := by
  simp [lo8, zext16, BitVec.extractLsb'_setWidth_of_le]

theorem hi8_zext16 (b : Byte) : hi8 (zext16 b) = 0#8 := by
  apply BitVec.eq_of_toNat_eq
  rw [hi8, zext16, BitVec.extractLsb'_toNat, BitVec.toNat_setWidth_of_le (by decide), Nat.shiftRight_eq_div_pow,
    Nat.div_eq_of_lt b.isLt]
  rfl

theorem lo8_xor (c d : Crc) : lo8 (c ^^^ d) = lo8 c ^^^ lo8 d := BitVec.extractLsb'_xor

theorem hi8_xor (c d : Crc) : hi8 (c ^^^ d) = hi8 c ^^^ hi8 d := BitVec.extractLsb'_xor

/-- For a fixed byte the CRC before can be told from the CRC after; the CRCs being finitely many, every CRC comes
after one. -/
theorem crcStep_bijective (b : Byte) : Function.Bijective (crcStep · b) := by
  have hinj : Function.Injective (crcStep · b) := fun c c' h => by
    simp only [crcStep_eq_iterate] at h
    exact (BitVec.xor_left_inj _).1 (crcShift1_injective.iterate 8 h)
  exact Finite.injective_iff_bijective.1 hinj

/-! ### The bytes of a run of offsets (R82, R87) -/

/-- The CRC of `k + m` bytes is that of the first `k`, with the `m` bytes after them absorbed in order. -/
theorem crc16_add (read : Nat → Byte) (k m : Nat) :
    crc16 read (k + m) = (List.range' k m).foldl (fun c i => crcStep c (read i)) (crc16 read k) := by
  induction m with
  | zero => rfl
  | succ m ih => rw [← Nat.add_assoc, crc16_succ, ih, List.range'_1_concat, List.foldl_concat]

theorem crc16_eq_foldl_range (read : Nat → Byte) (n : Nat) :
    crc16 read n = (List.range n).foldl (fun c i => crcStep c (read i)) crcSeed := by
  rw [List.range_eq_range', ← crc16_zero read, ← crc16_add, Nat.zero_add]

theorem crc16_getD (bytes : List Byte) :
    crc16 (fun i => bytes.getD i 0#8) bytes.length = bytes.foldl crcStep crcSeed := by
  have hbytes : (List.range bytes.length).map (fun i => bytes.getD i 0#8) = bytes :=
    List.ext_getElem (by simp) fun i _ hi => by simp [hi]
  rw [crc16_eq_foldl_range, ← List.foldl_map, hbytes]

/-! ### A command that raises no fault, or one -/

section

variable {s : State} {i : Instr}

theorem exec_eq_accept (hf : s.fault = false) (hw : faultOf s.bufSize i = none) : exec i s = .next (s.accept i) := by
  rw [exec_of_unfaulted hf, hw, Option.elim_none]

theorem exec_eq_raiseFault {why : FaultCause} (hf : s.fault = false) (hw : faultOf s.bufSize i = some why) :
    exec i s = .next (s.raiseFault why) := by
  rw [exec_of_unfaulted hf, hw, Option.elim_some]

/-- The host's next action is a command that the engine accepts. -/
theorem step_eq_accept {rest : List HostAction} (hi : i.wf = true) (hp : s.pending = hostWrites i :: rest)
    (hf : s.fault = false) (hw : faultOf s.bufSize i = none) :
    step s = .next ((s.takeUp rest).advancePc.accept i) :=
  (step_hostWrites hi hp).trans (exec_eq_accept (s := (s.takeUp rest).advancePc) hf hw)

end

theorem faultOf_compute_of_le {n size : Nat} (h : n ≤ size) : faultOf size (.compute n) = none :=
  if_neg (Nat.not_lt.2 h)

theorem faultOf_compute_of_gt {n size : Nat} (h : n > size) : faultOf size (.compute n) = some .readBounds :=
  if_pos h

/-- A stream of UPDATEs is performed to its end, and absorbs its bytes in order from whatever CRC holds (R87). -/
theorem runSteps_updates (bytes : List Byte) {s : State} {rest : List HostAction} (hf : s.fault = false)
    (hp : s.pending = bytes.map (fun b => hostWrites (.update b)) ++ rest) :
    ∃ t, runSteps bytes.length s = some t ∧ t.pending = rest ∧ t.fault = false ∧
      t.crc = bytes.foldl crcStep s.crc := by
  induction bytes generalizing s with
  | nil => exact ⟨s, rfl, hp, hf, rfl⟩
  | cons b bs ih =>
    rw [List.length_cons, runSteps_succ _ s _ (step_eq_accept rfl hp hf rfl)]
    exact ih hf rfl

/-- After COMPUTE of k bytes, a stream of UPDATEs absorbs its bytes from the CRC of those k (R87). -/
theorem runSteps_compute_updates {k : Nat} (bytes : List Byte) {s : State} {rest : List HostAction}
    (hf : s.fault = false) (hk : lenFits k = true) (hsize : k ≤ s.bufSize)
    (hp : s.pending = hostWrites (.compute k) :: (bytes.map (fun b => hostWrites (.update b)) ++ rest)) :
    ∃ t, runSteps (bytes.length + 1) s = some t ∧ t.pending = rest ∧ t.fault = false ∧
      t.crc = bytes.foldl crcStep (s.crcOf k) := by
  rw [runSteps_succ _ s _ (step_eq_accept (i := .compute k) hk hp hf (faultOf_compute_of_le hsize))]
  exact runSteps_updates bytes hf rfl

end Sys2Proof.Machine

/-! PROOF. The statements of 40_crc_generate.md. -/

namespace Sys2Proof.Proofs

open Sys2Proof.Machine Sys2Proof.Claims

/-- Settles O28: the stream absorbs its bytes in order, and after COMPUTE those are the bytes that are still
missing. -/
theorem streamingLaw : Obligations.StreamingLaw := by
  refine ⟨fun bytes s rest hf hc hp => ?_, fun k n s rest hf hk hkn hn hp => ?_, ?_⟩
  · obtain ⟨t, ht, hpending, hfault, hcrc⟩ := runSteps_updates bytes hf hp
    exact ⟨t, ht, hpending, hfault, by rw [hcrc, hc, crc16_getD]; rfl⟩
  · obtain ⟨m, rfl⟩ := Nat.exists_eq_add_of_le hkn
    rw [Nat.add_sub_cancel_left] at hp ⊢
    obtain ⟨t, ht, hpending, hfault, hcrc⟩ := runSteps_compute_updates ((List.range' k m).map s.readByte) hf
      (lenFits_iff.2 hk) (by omega) (by rw [List.map_map]; exact hp)
    rw [List.length_map, List.length_range'] at ht
    exact ⟨t, ht, hpending, hfault, by rw [hcrc, List.foldl_map, State.crcOf, ← crc16_add]⟩
  · rintro _ rfl
    decide +kernel

/-- Settles O17: INIT raises no fault, and a word with OP = 1 and every other field 0 is the word 1. -/
theorem initSetsTheSeed : Obligations.InitSetsTheSeed := by
  refine ⟨rfl, fun s hf => exec_eq_accept hf rfl, fun w ho hne => (illegalWord_iff_isIllegal w).1 ?_⟩
  have hw := toNat_eq_fields w
  have hne' : w.toNat ≠ 1 := fun h => hne (BitVec.eq_of_toNat_eq h)
  rw [IllegalWord]
  omega

/-- Settles O18: UPDATE raises no fault; the illegal words with OP = 2 are those of R66; the worked values are
computed. -/
theorem updateAbsorbsOneByte : Obligations.UpdateAbsorbsOneByte := by
  refine ⟨encode_update_toNat, fun s d hf => exec_eq_accept hf rfl,
    fun w ho h => (illegalWord_iff_isIllegal w).1 ?_, by decide +kernel⟩
  rw [IllegalWord]
  omega

/-- Settles O19: COMPUTE faults exactly beyond the buffer's end; the illegal words with OP = 3 are those of R66; the
examples are computed. -/
theorem computeLeavesTheCrcOfNBytes : Obligations.ComputeLeavesTheCrcOfNBytes := by
  refine ⟨fun n hn => encode_compute_toNat (lenFits_iff.2 hn),
    fun s n hf hn => exec_eq_accept hf (faultOf_compute_of_le hn),
    fun s n hf hn => exec_eq_raiseFault hf (faultOf_compute_of_gt hn),
    fun w ho h => (illegalWord_iff_isIllegal w).1 ?_, fun s => crc16_zero s.readByte, by decide +kernel⟩
  rw [IllegalWord]
  omega

/-- Settles O26, from the CRC of a longer run of bytes. -/
theorem crc16FoldsTheBytesInOrder : Obligations.Crc16FoldsTheBytesInOrder :=
  ⟨crc16_eq_foldl_range, crc16_zero⟩

/-- Settles O27: the bits of the polynomial, and that a byte's eight shifts can be undone. -/
theorem crcArithmeticLaws : Obligations.CrcArithmeticLaws := by
  refine ⟨fun c i hi => ?_, crcShift1_getLsbD_fifteen,
    fun b => ⟨fun c c' h => (crcStep_bijective b).1 h, (crcStep_bijective b).2⟩, by decide⟩
  rw [crcShift1_getLsbD, crcPoly_getLsbD i hi]
  obtain rfl | hne := eq_or_ne i 15
  · rw [BitVec.getLsbD_of_ge c (15 + 1) (by decide), Bool.false_and]
  · rw [decide_eq_true hne, Bool.and_true]

/-- Settles O24: the bit tested is the parity of the CRC, and the shift halves it. -/
theorem crcShiftOnNumbers : Obligations.CrcShiftOnNumbers :=
  crcShift1_toNat

/-- Settles O25: the value is the CRC XORed with the widened byte, which has no high byte. -/
theorem crcStepIsEightShifts : Obligations.CrcStepIsEightShifts :=
  fun c b => ⟨c ^^^ zext16 b, by rw [lo8_xor, lo8_zext16], by rw [hi8_xor, hi8_zext16, BitVec.xor_zero],
    crcStep_eq_iterate c b⟩

end Sys2Proof.Proofs

/-! PROOF. The rules the proofs of 41_crc_append.md cite: the CRC bytes in the two orders, the residue of a CRC
followed by its own bytes, when APPEND and CHECK fault, and CHECK and COMPUTE of the frame an APPEND leaves. -/

namespace Sys2Proof.Machine

/-! ### The two bytes of a CRC (R101) -/

theorem lo8_toNat (c : Crc) : (lo8 c).toNat = c.toNat % 256 := by
  rw [lo8, BitVec.extractLsb'_toNat, Nat.shiftRight_zero]

theorem hi8_toNat (c : Crc) : (hi8 c).toNat = c.toNat / 256 := by
  rw [hi8, BitVec.extractLsb'_toNat, Nat.shiftRight_eq_div_pow]
  omega

theorem crcBytes_eq_iff_of_ne {o o' : ByteOrder} (h : o ≠ o') (c : Crc) :
    crcBytes c o = crcBytes c o' ↔ lo8 c = hi8 c := by
  cases o with
  | lohi =>
    cases o' with
    | lohi => exact absurd rfl h
    | hilo => simp [crcBytes, eq_comm]
  | hilo =>
    cases o' with
    | lohi => simp [crcBytes, eq_comm]
    | hilo => exact absurd rfl h

/-! ### The residue (R103) -/

/-- While the bits that come to be tested are 0, nothing is XORed in. -/
theorem crcShift1_iterate_of_low_bits_clear (c : Crc) (k : Nat) (h : ∀ i, i < k → c.getLsbD i = false) :
    crcShift1^[k] c = c >>> k := by
  induction k with
  | zero => exact (BitVec.ushiftRight_zero c).symm
  | succ k ih =>
    have hbit : (c >>> k).getLsbD 0 = false := by
      rw [BitVec.getLsbD_ushiftRight]
      exact h k (by omega)
    rw [Function.iterate_succ_apply', ih fun i hi => h i (by omega), crcShift1,
      if_neg (ne_true_of_eq_false hbit), BitVec.shiftRight_add]

theorem ushiftRight_eight_eq_zext16_hi8 (c : Crc) : c >>> 8 = zext16 (hi8 c) := by
  apply BitVec.eq_of_toNat_eq
  rw [zext16, BitVec.toNat_setWidth_of_le (by decide), hi8_toNat, BitVec.toNat_ushiftRight,
    Nat.shiftRight_eq_div_pow]

theorem lo8_getLsbD (c : Crc) {i : Nat} (hi : i < 8) : (lo8 c).getLsbD i = c.getLsbD i := by
  simp [lo8, hi]

/-- With the low byte 0, eight shifts only bring the high byte down. -/
theorem crcShift1_iterate_eight_of_lo8_zero {c : Crc} (h : lo8 c = 0#8) : crcShift1^[8] c = zext16 (hi8 c) := by
  rw [crcShift1_iterate_of_low_bits_clear c 8 fun i hi => ?_, ushiftRight_eight_eq_zext16_hi8]
  rw [← lo8_getLsbD c hi, h, BitVec.getLsbD_zero]

/-- A CRC's low byte cancels that byte, and the eight shifts bring the high byte down. -/
theorem crcStep_lo8 (c : Crc) : crcStep c (lo8 c) = zext16 (hi8 c) := by
  have hlow : lo8 (c ^^^ zext16 (lo8 c)) = 0#8 := by rw [lo8_xor, lo8_zext16, BitVec.xor_self]
  rw [crcStep_eq_iterate, crcShift1_iterate_eight_of_lo8_zero hlow, hi8_xor, hi8_zext16, BitVec.xor_zero]

theorem crcStep_zext16_self (b : Byte) : crcStep (zext16 b) b = 0x0000#16 := by
  rw [crcStep_eq_iterate, BitVec.xor_self]
  exact Function.iterate_fixed rfl 8

/-- A CRC followed by its own bytes, low byte first, leaves 0. -/
theorem crcStep_lo8_hi8 (c : Crc) : crcStep (crcStep c (lo8 c)) (hi8 c) = 0x0000#16 := by
  rw [crcStep_lo8, crcStep_zext16_self]

/-! ### When APPEND and CHECK fault (R100, R110) -/

section

variable {n size : Nat} (o : ByteOrder)

theorem faultOf_append_of_le (h : n + 2 ≤ size) : faultOf size (.append n o) = none := by
  rw [faultOf, if_neg (by omega), if_neg (by omega)]

theorem faultOf_append_of_gt (h : n > size) : faultOf size (.append n o) = some .readBounds :=
  if_pos h

theorem faultOf_append_of_no_room (h : n ≤ size) (h' : n + 2 > size) :
    faultOf size (.append n o) = some .writeBounds := by
  rw [faultOf, if_neg (by omega), if_pos h']

theorem faultOf_check_of_le (h : 2 ≤ n) (h' : n ≤ size) : faultOf size (.check n o) = none := by
  rw [faultOf, if_neg (by omega), if_neg (by omega)]

end

/-! ### The frame an accepted APPEND leaves (R103) -/

section

variable {s : State} {n : Nat} {o : ByteOrder}

theorem exec_append_eq_accept (hf : s.fault = false) (hn : n + 2 ≤ s.bufSize) :
    exec (.append n o) s = .next (s.accept (.append n o)) :=
  exec_eq_accept hf (faultOf_append_of_le o hn)

/-- The two bytes after the first N are those APPEND stored. -/
theorem State.accept_append_trailingBytesAre (hwf : s.mem.wf = true) (b : Byte × Byte) :
    (s.accept (.append n o)).trailingBytesAre (n + 2) b = decide (crcBytes (s.crcOf n) o = b) := by
  have hlow : n + 2 - 2 = n := by omega
  have hhigh : n + 2 - 1 = n + 1 := by omega
  rw [State.trailingBytesAre, hlow, hhigh, State.accept_append_readByte_low n o hwf,
    State.accept_append_readByte_high n o hwf, Bool.eq_iff_iff]
  simp [Prod.ext_iff]

/-- CHECK of the frame recomputes the CRC that APPEND left, and compares the bytes stored in APPEND's order with
those of its own. -/
theorem exec_check_accept_append (hwf : s.mem.wf = true) (hf : s.fault = false) (hn : n + 2 ≤ s.bufSize)
    (o' : ByteOrder) :
    exec (.check (n + 2) o') (s.accept (.append n o)) =
      .next ((s.accept (.append n o)).complete (s.crcOf n)
        (decide (crcBytes (s.crcOf n) o = crcBytes (s.crcOf n) o')) 0#4) := by
  calc exec (.check (n + 2) o') (s.accept (.append n o))
      = .next ((s.accept (.append n o)).accept (.check (n + 2) o')) :=
        exec_eq_accept (s := s.accept (.append n o)) hf (faultOf_check_of_le o' (by omega) hn)
    _ = .next ((s.accept (.append n o)).complete ((s.accept (.append n o)).crcOf n)
          ((s.accept (.append n o)).trailingBytesAre (n + 2) (crcBytes ((s.accept (.append n o)).crcOf n) o')) 0#4) :=
        rfl
    _ = _ := by rw [State.accept_append_crcOf, State.accept_append_trailingBytesAre hwf]

/-- COMPUTE of the frame absorbs after the first N bytes the CRC of those bytes. -/
theorem State.accept_append_crcOf_frame (hwf : s.mem.wf = true) :
    (s.accept (.append n .lohi)).crcOf (n + 2) = 0x0000#16 := by
  calc (s.accept (.append n .lohi)).crcOf (n + 2)
      = crcStep (crcStep ((s.accept (.append n .lohi)).crcOf n) ((s.accept (.append n .lohi)).readByte n))
          ((s.accept (.append n .lohi)).readByte (n + 1)) := rfl
    _ = crcStep (crcStep (s.crcOf n) (lo8 (s.crcOf n))) (hi8 (s.crcOf n)) := by
        rw [State.accept_append_crcOf, State.accept_append_readByte_low n .lohi hwf,
          State.accept_append_readByte_high n .lohi hwf, crcBytes_lohi]
    _ = 0x0000#16 := crcStep_lo8_hi8 _

end

end Sys2Proof.Machine

/-! PROOF. The statements of 41_crc_append.md. -/

namespace Sys2Proof.Proofs

open Sys2Proof.Machine Sys2Proof.Claims

/-- Settles O20: APPEND's two bounds in their order; the illegal words with OP = 4 are those of R66; the examples are
computed. -/
theorem appendWritesTheCrcAfterNBytes : Obligations.AppendWritesTheCrcAfterNBytes := by
  refine ⟨fun n r hn hr => ?_, fun s n o hf hn => exec_append_eq_accept hf hn,
    fun s n o hf hn => exec_eq_raiseFault hf (faultOf_append_of_gt o hn),
    fun s n o hf hn hn' => exec_eq_raiseFault hf (faultOf_append_of_no_room o hn hn'),
    fun w ho h => (illegalWord_iff_isIllegal w).1 ?_, fun o => ?_,
    fun c => (crcBytes_eq_iff_of_ne (by decide) c).2, by decide +kernel⟩
  · rw [encode_append_toNat (lenFits_iff.2 hn), toRev_orderOfRev_toNat hr]
  · rw [IllegalWord]
    omega
  · cases o <;> rfl

/-- Settles O30: CHECK recomputes the CRC that APPEND placed, and looks for it in the order it was placed in. -/
theorem appendThenCheckMatches : Obligations.AppendThenCheckMatches := by
  rintro s n o ⟨hwf, -⟩ hf hn
  refine ⟨_, exec_append_eq_accept hf hn, rfl, ?_⟩
  rw [exec_check_accept_append hwf hf hn, decide_eq_true rfl]
  rfl

/-- Settles O31: CHECK looks for the same CRC in the other order, which is the same two bytes only when they are
equal. -/
theorem appendThenCheckInTheOtherOrder : Obligations.AppendThenCheckInTheOtherOrder := by
  rintro s n o o' ⟨hwf, -⟩ hf hn ho
  refine ⟨_, exec_append_eq_accept hf hn, ?_⟩
  simp only [exec_check_accept_append hwf hf hn, crcBytes_eq_iff_of_ne ho]
  rfl

/-- Settles O32: the low byte cancels the CRC's low byte and the high byte what is left of it. -/
theorem appendedFrameHasZeroResidue : Obligations.AppendedFrameHasZeroResidue := by
  rintro s n ⟨hwf, -⟩ hf hn
  refine ⟨_, exec_append_eq_accept hf hn, ?_⟩
  rw [exec_eq_accept (s := s.accept (.append n .lohi)) hf (faultOf_compute_of_le hn), State.accept,
    State.accept_append_crcOf_frame hwf]
  rfl

/-- Settles O39, by a command's three outcomes. -/
theorem frameOfAppend : Obligations.FrameOfAppend := by
  rintro n o s ⟨hwf, -⟩
  obtain ⟨t, ht, ho⟩ := exec_outcome (.append n o) s
  obtain ⟨hsize, hpending, hpc, hreg, hbuf⟩ := (exec_result ht).sameHost
  suffices hframe : (∀ a, a ≠ n → a ≠ n + 1 → t.readByte a = s.readByte a) ∧
      (t.fault = true → ∀ a, t.readByte a = s.readByte a) ∧
      (t.fault = false → t.readByte n = (crcBytes (crc16 s.readByte n) o).1 ∧
        t.readByte (n + 1) = (crcBytes (crc16 s.readByte n) o).2) ∧
      ((t.fault = s.fault ∧ t.cause = s.cause) ∨
        (t.crc = s.crc ∧ t.matchBit = s.matchBit ∧ t.count = s.count)) by
    obtain ⟨hother, hfault, hcrc, hregs⟩ := hframe
    exact ⟨t, ht, hother, hfault, hcrc, hsize, hpending, hpc, hreg, hbuf, hregs⟩
  cases ho with
  | ignored hf => exact ⟨fun _ _ _ => rfl, fun _ _ => rfl, by simp [hf], .inl ⟨rfl, rfl⟩⟩
  | raised => exact ⟨fun _ _ _ => rfl, fun _ _ => rfl, by simp, .inr ⟨rfl, rfl, rfl⟩⟩
  | accepted hf =>
    exact ⟨fun _ => State.accept_append_readByte_other n o, by simp [hf],
      fun _ => ⟨State.accept_append_readByte_low n o hwf, State.accept_append_readByte_high n o hwf⟩,
      .inl ⟨rfl, rfl⟩⟩

/-- Settles O29: the two bytes of a CRC on numbers. -/
theorem crcBytePlacement : Obligations.CrcBytePlacement :=
  fun c => ⟨lo8_toNat c, hi8_toNat c, hi8_toNat c, lo8_toNat c⟩

end Sys2Proof.Proofs

/-! PROOF. The rules the proof of 42_crc_check.md cites: CHECK's comparison as an equality of pairs, when CHECK
faults, and what it leaves when it is accepted. -/

namespace Sys2Proof.Machine

/-- The seed, the CRC of no bytes, is the same two bytes in either order (R110). -/
theorem crcBytes_crcSeed (o : ByteOrder) : crcBytes crcSeed o = (0xFF#8, 0xFF#8) := by
  cases o <;> rfl

theorem State.trailingBytesAre_eq_decide (s : State) (n : Nat) (b : Byte × Byte) :
    s.trailingBytesAre n b = decide ((s.readByte (n - 2), s.readByte (n - 1)) = b) := by
  rw [State.trailingBytesAre, Bool.eq_iff_iff]
  simp [Prod.ext_iff]

section

variable {n size : Nat} (o : ByteOrder)

theorem faultOf_check_of_lt (h : n < 2) : faultOf size (.check n o) = some .shortFrame :=
  if_pos h

theorem faultOf_check_of_gt (h : 2 ≤ n) (h' : n > size) : faultOf size (.check n o) = some .readBounds := by
  rw [faultOf, if_neg (Nat.not_lt.2 h), if_pos h']

end

/-- An accepted CHECK leaves the CRC of the bytes before the trailing two, and whether those two are its bytes
(R110). -/
theorem exec_check_eq_complete {s : State} {n : Nat} (o : ByteOrder) (hf : s.fault = false) (hn : 2 ≤ n)
    (hn' : n ≤ s.bufSize) :
    exec (.check n o) s =
      .next (s.complete (s.crcOf (n - 2))
        (decide ((s.readByte (n - 2), s.readByte (n - 1)) = crcBytes (s.crcOf (n - 2)) o)) 0#4) := by
  rw [exec_eq_accept hf (faultOf_check_of_le o hn hn'), State.accept, State.trailingBytesAre_eq_decide]

/-- CHECK of two bytes compares them with the bytes of the seed (R110). -/
theorem exec_check_two_eq_complete {s : State} (o : ByteOrder) (hf : s.fault = false) (hn : 2 ≤ s.bufSize) :
    exec (.check 2 o) s =
      .next (s.complete crcSeed (decide (s.readByte 0 = 0xFF#8 ∧ s.readByte 1 = 0xFF#8)) 0#4) := by
  have hcrc : s.crcOf (2 - 2) = crcSeed := crc16_zero s.readByte
  rw [exec_check_eq_complete o hf le_rfl hn, hcrc, crcBytes_crcSeed]
  simp only [Prod.mk.injEq]

end Sys2Proof.Machine

/-! PROOF. The statement of 42_crc_check.md. -/

namespace Sys2Proof.Proofs

open Sys2Proof.Machine Sys2Proof.Claims

/-- Settles O21: CHECK's two bounds in their order; the illegal words with OP = 5 are those of R66; the examples are
computed. -/
theorem checkComparesTheTrailingBytes : Obligations.CheckComparesTheTrailingBytes := by
  refine ⟨fun n r hn hr => ?_, fun s n o hf hn hn' => exec_check_eq_complete o hf hn hn',
    fun s n o hf hn => exec_eq_raiseFault hf (faultOf_check_of_lt o hn),
    fun s n o hf hn hn' => exec_eq_raiseFault hf (faultOf_check_of_gt o hn hn'),
    fun w ho h => (illegalWord_iff_isIllegal w).1 ?_, fun s o hf hn => ?_, by decide +kernel⟩
  · rw [encode_check_toNat (lenFits_iff.2 hn), toRev_orderOfRev_toNat hr]
  · rw [IllegalWord]
    omega
  · rw [exec_check_two_eq_complete o hf hn]
    rfl

end Sys2Proof.Proofs

/-! PROOF. The rules the proofs of 60_exceptions.md cite: the CAUSE code of the fault a command raises, what is left
of a command write that faults, and what every step but a reset keeps while FAULT = 1. -/

namespace Sys2Proof.Machine

open Sys2Proof.Claims

/-- R120's conditions as CAUSE codes are those of the faults the commands raise. -/
theorem causeOf_eq_elim_faultOf (size : Nat) (i : Instr) :
    causeOf size i = (faultOf size i).elim 0 fun why => why.code.toNat := by
  cases i with
  | init | update => rfl
  | compute n =>
    simp only [causeOf, faultOf]
    split <;> rfl
  | append n o | check n o =>
    simp only [causeOf, faultOf]
    split
    · rfl
    · split <;> rfl

/-- A command write that sets FAULT is fault entry and nothing else (R122). -/
theorem ExecResult.eq_raiseFault {s t : State} (h : ExecResult s t) (hs : s.fault = false) (ht : t.fault = true) :
    ∃ why, t = s.raiseFault why := by
  cases h with
  | faulted _ why => exact ⟨why, rfl⟩
  | ignored hf => simp [hs] at hf
  | completed | appended => simp [hs] at ht

/-- A command write while FAULT = 1 is taken up by the host and ignored by the engine (R124). -/
theorem step_commandWrite_of_fault {s : State} {w : Word} {rest : List HostAction} (hf : s.fault = true)
    (hp : s.pending = .writeReg 0 32 w :: rest) : step s = .next (s.takeUp rest).advancePc :=
  (step_commandWrite hp).trans (commandWrite_of_fault (s := (s.takeUp rest).advancePc) hf w)

/-- While FAULT = 1 every step but a reset keeps the engine's registers (R124, R125). -/
theorem step_sameRegisters_of_fault {s t : State} (hf : s.fault = true) (h : step s = .next t)
    (hr : s.pending.head? ≠ some .reset) : s.SameRegisters t := by
  cases step_effect h with
  | command _ _ _ _ hc =>
    obtain rfl := (commandWrite_result hc).eq_of_fault hf
    exact ⟨rfl, rfl, rfl, rfl, rfl⟩
  | reset _ hp => simp [hp] at hr
  | quiet _ _ _ hq => exact hq

end Sys2Proof.Machine

/-! PROOF. The statements of 60_exceptions.md. -/

namespace Sys2Proof.Proofs

open Sys2Proof.Machine Sys2Proof.Claims

/-- Settles O9, action by action; what every step but a reset keeps is one lemma. -/
theorem faultedEngineIgnoresCommands : Obligations.FaultedEngineIgnoresCommands := by
  refine fun s hf => ⟨exec_of_fault hf, fun w rest => step_commandWrite_of_fault hf, fun rest => step_readCrc,
    fun rest => step_readStatus, fun off v rest => step_writeBuf, fun off rest => step_readBuf, fun t h hr => ?_⟩
  obtain ⟨hcrc, hmatch, hfault, hcause, hcount⟩ := step_sameRegisters_of_fault hf h hr
  exact ⟨hfault.trans hf, hcause, hcrc, hmatch, hcount⟩

/-- Settles O22, by a command's outcomes while FAULT = 0: the fault of its operands with that fault's code, or none.
The illegal word is O8's. -/
theorem faultConditionsAndPriority : Obligations.FaultConditionsAndPriority := by
  refine ⟨fun i s hs => ?_, fun s w rest hp hs hw => ?_⟩
  · obtain ⟨t, ht, ho⟩ := exec_outcome i s
    refine ⟨t, ht, ?_⟩
    cases ho with
    | ignored hf => simp [hs] at hf
    | raised _ why hw =>
      have hcode : why.code.toNat ≠ 0 := Nat.ne_of_gt why.code_bounds.1
      rw [causeOf_eq_elim_faultOf, hw, Option.elim_some, BitVec.ofNat_toNat, BitVec.setWidth_eq]
      exact ⟨rfl, iff_of_true rfl hcode, fun _ => rfl⟩
    | accepted _ hw => simp [causeOf_eq_elim_faultOf, hw, hs]
  · obtain ⟨-, -, hillegal⟩ := illegalWordRaisesIllegalCommand
    exact (hillegal s w rest hp hw).1 hs

/-- Settles O23: a command write that sets FAULT is fault entry, with one of the four codes. -/
theorem faultEntryWritesOnlyFaultAndCause : Obligations.FaultEntryWritesOnlyFaultAndCause := by
  intro s t w rest hp hs h ht
  rw [step_commandWrite hp] at h
  obtain ⟨why, rfl⟩ := (commandWrite_result h).eq_raiseFault hs ht
  obtain ⟨hlow, hhigh⟩ := why.code_bounds
  exact ⟨why.code, hlow, hhigh, rfl⟩

end Sys2Proof.Proofs

/-! PROOF. The rules the proofs of 70_reset_and_hazards.md cite: what only a reset ends, what an accepted command
overwrites, the length duties as the absence of a fault, and a run of commands that keep them. -/

namespace Sys2Proof.Machine

open Sys2Proof.Claims

/-! ### Reset and waiting (R140, R141) -/

theorem step_of_pending_nil {s : State} (hp : s.pending = []) : step s = .next s := by
  simp only [step, hostStep, hp]

/-- A step that changes FAULT or CAUSE of a faulted engine is a reset (R140). -/
theorem pending_reset_of_fault_changed {s t : State} (hf : s.fault = true) (h : step s = .next t)
    (hne : t.fault = false ∨ t.cause ≠ s.cause) : ∃ rest, s.pending = .reset :: rest := by
  by_contra hr
  rw [← List.head?_eq_some_iff] at hr
  obtain ⟨-, -, hfault, hcause, -⟩ := step_sameRegisters_of_fault hf h hr
  obtain hclear | hother := hne
  · simp [hfault, hf] at hclear
  · exact hother hcause

/-- `crc.init`, ignored or accepted, changes at most CRC, MATCH and COUNT (R85). -/
theorem exec_init_frame {s t : State} (h : exec .init s = .next t) :
    t = { s with crc := t.crc, matchBit := t.matchBit, count := t.count } := by
  cases exec_outcome_of_next h with
  | ignored | accepted => rfl
  | raised _ _ hw => simp [faultOf] at hw

/-! ### What an accepted command overwrites (R144) -/

/-- No command reads MATCH or COUNT, and every accepted one writes both. -/
theorem State.accept_with_matchBit_count (s : State) (i : Instr) (m : Bool) (c : BitVec 4) :
    State.accept { s with matchBit := m, count := c } i = s.accept i := by
  cases i <;> rfl

theorem State.accept_sameHost (s : State) (i : Instr) : s.SameHost (s.accept i) := by
  cases i <;> exact ⟨rfl, rfl, rfl, rfl, rfl⟩

/-! ### The length duties (R143) -/

/-- A command raises no fault exactly when it keeps its length duty. -/
theorem faultOf_eq_none_iff (size : Nat) (i : Instr) : faultOf size i = none ↔ lengthDuty size i = true := by
  cases i with
  | init | update => exact iff_of_true rfl rfl
  | compute n => simp [faultOf, lengthDuty]
  | append n o | check n o =>
    simp only [faultOf, lengthDuty, Bool.and_eq_true, decide_eq_true_eq]
    split_ifs
    · exact iff_of_false not_false (by omega)
    · exact iff_of_false not_false (by omega)
    · exact iff_of_true rfl (by omega)

/-- A command written while FAULT = 0 leaves FAULT = 0 exactly when it keeps its length duty. -/
theorem exec_unfaulted_iff_lengthDuty {s : State} (hf : s.fault = false) (i : Instr) :
    ∃ t, exec i s = .next t ∧ (t.fault = false ↔ lengthDuty s.bufSize i = true) := by
  refine ⟨_, exec_of_unfaulted hf i, ?_⟩
  rw [← faultOf_eq_none_iff]
  cases hw : faultOf s.bufSize i with
  | none => simp [hf]
  | some why => simp

/-- A host that writes commands which keep their length duties, however many, has each of them accepted. -/
theorem runSteps_dutiful (commands : List Instr) {s : State} {rest : List HostAction} (hf : s.fault = false)
    (hc : ∀ i ∈ commands, i.wf = true ∧ lengthDuty s.bufSize i = true)
    (hp : s.pending = commands.map hostWrites ++ rest) :
    ∃ t, runSteps commands.length s = some t ∧ t.fault = false ∧ t.cause = s.cause ∧ t.pending = rest ∧
      t.pc = s.pc + commands.length := by
  induction commands generalizing s with
  | nil => exact ⟨s, rfl, hf, rfl, hp, rfl⟩
  | cons i is ih =>
    obtain ⟨⟨hwf, hduty⟩, his⟩ := List.forall_mem_cons.1 hc
    have hstep := step_eq_accept hwf hp hf ((faultOf_eq_none_iff _ _).2 hduty)
    obtain ⟨hsize, hpending, hpc, -, -⟩ :=
      (s.takeUp (is.map hostWrites ++ rest)).advancePc.accept_sameHost i
    obtain ⟨t, ht, hfault, hcause, hrest, hindex⟩ := ih (by simpa using hf) (by rwa [hsize]) hpending
    refine ⟨t, (runSteps_succ _ _ _ hstep).trans ht, hfault, by simpa using hcause, hrest, ?_⟩
    simp only [hindex, hpc, State.advancePc_pc, State.takeUp_pc, List.length_cons]
    omega

end Sys2Proof.Machine

/-! PROOF. The statements of 70_reset_and_hazards.md. -/

namespace Sys2Proof.Proofs

open Sys2Proof.Machine Sys2Proof.Claims

/-- Settles O11: every step of a faulted engine but a reset keeps FAULT and CAUSE, and so does every command. -/
theorem resetEventRestoresTheRegisters : Obligations.ResetEventRestoresTheRegisters := by
  refine ⟨fun s rest => step_reset, fun s t h hf => pending_reset_of_fault_changed hf h, fun i s t h hf => ?_,
    fun s t => exec_init_frame⟩
  obtain rfl := (exec_result h).eq_of_fault hf
  exact ⟨hf, rfl⟩

/-- Settles O37, by a command's outcomes while FAULT = 0; the accepted one is the same from any MATCH and COUNT. -/
theorem acceptedCommandOverwritesResults : Obligations.AcceptedCommandOverwritesResults := by
  intro i s m c hs
  obtain ⟨t, ht, ho⟩ := exec_outcome i s
  refine ⟨t, ht, fun hf => ?_, (exec_result ht).results_of_fault⟩
  cases ho with
  | ignored hn => simp [hs] at hn
  | raised => simp at hf
  | accepted _ hw =>
    rw [exec_eq_accept (s := { s with matchBit := m, count := c }) hs hw, State.accept_with_matchBit_count]

/-- Settles O45: a command is unfaulted exactly when it keeps its length duty, and so by induction on the commands
the host writes. -/
theorem dutifulHostNeverFaults : Obligations.DutifulHostNeverFaults := by
  refine ⟨fun s n o hf => ?_, fun commands s rest => runSteps_dutiful commands⟩
  obtain ⟨t, ht, htf⟩ := exec_unfaulted_iff_lengthDuty hf (.compute n)
  obtain ⟨u, hu, huf⟩ := exec_unfaulted_iff_lengthDuty hf (.append n o)
  obtain ⟨v, hv, hvf⟩ := exec_unfaulted_iff_lengthDuty hf (.check n o)
  simp only [lengthDuty, Bool.and_eq_true, decide_eq_true_eq] at htf huf hvf
  exact ⟨t, u, v, ht, hu, hv, htf, huf, hvf⟩

/-- Settles O14: with no action left the host's step is the waiting one. -/
theorem engineWaitsForTheHost : Obligations.EngineWaitsForTheHost :=
  fun _ => step_of_pending_nil

end Sys2Proof.Proofs
